-- ==== Sys2Proof/Word.lean ====
section
/-!
DEFINITION. The value types of the block (spec/00_scope.md R6, R7): bytes, keystream words, positions, Unit values,
seeds, permutation tables and frames. Everything is unsigned (R7); a sequence stays a sequence (R10).
-/

namespace Sys2Proof

/-- A byte, 8 bits (R7). -/
abbrev Byte := BitVec 8

/-- A keystream word: `WORD_BITS` = 32 (R6, decision D1 of the spec). -/
abbrev Word := BitVec 32

/-- A position in the keystream space: 128 bits, arithmetic modulo 2^128 (R6, R12, R79). -/
abbrev Position := BitVec 128

/-- One entry of a table: 4 bits, a bit position 0..15 (R13). -/
abbrev Nibble := BitVec 4

/-- The 16-bit value of a Unit; bit position i has weight 2^i (R35). -/
abbrev UnitValue := BitVec 16

/-- A seed: 32 bytes kept as a sequence, `SEED[i]` is element i (R10). -/
abbrev Seed := Vector Byte 32

/-- A table of sixteen 4-bit entries (R13). -/
abbrev Table := Vector Nibble 16

/-- A frame on either port: a finite sequence of bytes (R50). -/
abbrev Frame := List Byte

/-- A generator: a function of seed and position, which is G1 and G2 of R32. -/
abbrev Gen := Seed → Position → Word

/-- 32 bytes of 0x00 (R21). -/
def Seed.zero : Seed := Vector.replicate 32 0

/-- Sixteen zeros (R21); not a permutation. -/
def Table.zero : Table := Vector.replicate 16 0

end Sys2Proof
end

