-- ==== Sys2Proof/Config.lean ====
section
/-!
DEFINITION. What is fixed when a block is built (spec/70_reset_and_hazards.md R204): its generator `GEN` and its
`MAX_DATA`. `GEN` is the open parameter of spec/20_memory.md R32 (decision D0 of the spec): an opaque constant.
-/

namespace Sys2Proof

/-- `GEN` of the chip (R32): OPEN. Nothing can be proved about its words, so a claim about a block fitted with it
holds for every generator that meets G1 and G2 (log 1). -/
opaque Config.gen : Seed → Position → Word

/-- Which generator a block is fitted with: the chip's open one, or one of the three stand-ins of
spec/95_test_vectors.md section 2, each a legal `GEN` in the sense of G1 and G2 (log 2). -/
inductive GenId where
  /-- the chip's own, `Config.gen` -/
  | chip
  /-- `CGEN(S, p) = p mod 2^32` -/
  | cgen
  /-- `TGEN`, a mixing function of the position and the last four seed bytes -/
  | tgen
  /-- `ONES(S, p) = 0xFFFFFFFF`, not live -/
  | ones
  deriving DecidableEq, Repr

/-- The build of a block (R204): its generator and `MAX_DATA`, where `none` is `unbounded` (R6). -/
structure Build where
  gen     : GenId
  maxData : Option Nat
  deriving DecidableEq, Repr

/-- The build the model is run with from reset: the chip's generator and the spec's own default, `unbounded` (R6; log 3). -/
def Config.build : Build := { gen := .chip, maxData := none }

end Sys2Proof
end

