-- ==== Sys2Proof/Syntax.lean ====
section
/-!
DEFINITION. The thirteen commands (spec/30_encoding.md R54), one constructor per row of spec/opcode_table.json, with
their operand fields as R53 and R55 give them.
-/

namespace Sys2Proof

/-- A command: what one legal frame says (R54, R60). -/
inductive Instr where
  /-- LDSEED s (R70) -/
  | ldseed (s : Seed)
  /-- SEEK p (R71) -/
  | seek (p : Position)
  /-- DRAW n (R72) -/
  | draw (n : BitVec 32)
  /-- GENTAB (R90) -/
  | gentab
  /-- LDTAB t (R91) -/
  | ldtab (t : Table)
  /-- PERMW u (R107) -/
  | permw (u : UnitValue)
  /-- UNPERMW w (R108) -/
  | unpermw (w : UnitValue)
  /-- ENC b (R109) -/
  | enc (b : Byte)
  /-- DEC c (R110) -/
  | dec (c : UnitValue)
  /-- ENCR p, d (R111) -/
  | encr (p : Position) (d : List Byte)
  /-- DECR p, d (R112) -/
  | decr (p : Position) (d : List Byte)
  /-- RDSTAT (R130) -/
  | rdstat
  /-- CLR (R131) -/
  | clr
  deriving DecidableEq, Repr

end Sys2Proof
end

