-- ==== Sys2Proof/WellFormed.lean ====
section
/-!
DEFINITION. When a command can be sent as a frame. The operand types already fix every width; the one check left is the
length of ENCR and DECR data against `MAX_DATA` (spec/30_encoding.md R57 d). Whether operands are acceptable to the
command (DRAW 0, LDTAB of a non-permutation, DECR of odd data) is the command's own rule, not this one (R60).
-/

namespace Sys2Proof

/-- `n` data bytes are at most `MAX_DATA`; `none` is `unbounded` (R6, R57 d). -/
def withinMaxData (max : Option Nat) (n : Nat) : Bool :=
  match max with
  | none => true
  | some m => decide (n ≤ m)

/-- The check of R57 d, for a block built with `max`. -/
def Instr.wf (max : Option Nat) (i : Instr) : Bool :=
  match i with
  | .encr _ d => withinMaxData max d.length
  | .decr _ d => withinMaxData max d.length
  | .ldseed _ => true
  | .seek _ => true
  | .draw _ => true
  | .gentab => true
  | .ldtab _ => true
  | .permw _ => true
  | .unpermw _ => true
  | .enc _ => true
  | .dec _ => true
  | .rdstat => true
  | .clr => true

end Sys2Proof
end

