-- ==== Sys2Proof/Machine/Operands.lean ====
section
/-!
DEFINITION. Operand forms and byte order (spec/20_memory.md R34, R36; spec/30_encoding.md R53, R55;
spec/41_permutation_table.md R97): big-endian numbers, byte sequences, packed tables. Used by the decoder, the encoder
and the responses alike, so that each order is decided once.
-/

namespace Sys2Proof

/-- `from_be(s)` of R7: the first byte has the greatest weight. -/
def fromBE (s : List Byte) : Nat :=
  s.foldl (fun v b => v * 256 + b.toNat) 0

/-- `be_n(v)` of R7: n bytes, element 0 holds bits 8n-1..8n-8. -/
def beBytes (n v : Nat) : List Byte :=
  match n with
  | 0 => []
  | k + 1 => BitVec.ofNat 8 (v / 256 ^ k) :: beBytes k v

/-- `be_2(w)` of R103: the byte w[15:8], then the byte w[7:0]. -/
def be2 (w : UnitValue) : List Byte :=
  [w.extractLsb' 8 8, w.extractLsb' 0 8]

/-- Reading two bytes back (R103): first byte times 256 plus second byte. -/
def ofBe2 (hi lo : Byte) : UnitValue :=
  BitVec.ofNat 16 (hi.toNat * 256 + lo.toNat)

/-- The entries of packed bytes (R36): of each byte the high four bits, then the low four. -/
def unpackNibbles (s : List Byte) : List Nibble :=
  match s with
  | [] => []
  | b :: rest => b.extractLsb' 4 4 :: b.extractLsb' 0 4 :: unpackNibbles rest

/-- Two entries per byte, the earlier one in the high four bits (R36). -/
def packNibbles (t : List Nibble) : List Byte :=
  match t with
  | hi :: lo :: rest => BitVec.ofNat 8 (hi.toNat * 16 + lo.toNat) :: packNibbles rest
  | _ => []

/-- `pack(T)` of R97: 8 bytes, byte j is T[2j] * 16 + T[2j+1]. -/
def packTable (t : Table) : List Byte :=
  packNibbles t.toList

/-- A list as a sequence of exactly `n` elements, where it has that length. -/
def exactly {α : Type} (n : Nat) (l : List α) : Option (Vector α n) :=
  if h : l.length = n then some ⟨l.toArray, by simpa using h⟩ else none

/-- Format Z: no operand bytes (R53). -/
def readZ (ops : List Byte) : Option Unit :=
  match ops with
  | [] => some ()
  | _ :: _ => none

/-- Format B1: one byte (R53). -/
def readB1 (ops : List Byte) : Option Byte :=
  match ops with
  | [b] => some b
  | _ => none

/-- Format B2: a 16-bit value, high byte first (R53, R55). -/
def readB2 (ops : List Byte) : Option UnitValue :=
  match ops with
  | [hi, lo] => some (ofBe2 hi lo)
  | _ => none

/-- Format B4: a 32-bit value, big-endian (R53, R55). -/
def readB4 (ops : List Byte) : Option (BitVec 32) :=
  if ops.length = 4 then some (BitVec.ofNat 32 (fromBE ops)) else none

/-- Format T8: sixteen 4-bit entries in eight bytes (R53, R36). -/
def readT8 (ops : List Byte) : Option Table :=
  exactly 16 (unpackNibbles ops)

/-- Format P16: a 128-bit position, big-endian (R53, R55). -/
def readP16 (ops : List Byte) : Option Position :=
  if ops.length = 16 then some (BitVec.ofNat 128 (fromBE ops)) else none

/-- Format S32: 32 bytes taken as a sequence, in frame order (R53, R55). -/
def readS32 (ops : List Byte) : Option Seed :=
  exactly 32 ops

/-- Format PD: a 128-bit position, then any number of data bytes (R53, R59). -/
def readPD (ops : List Byte) : Option (Position × List Byte) :=
  (readP16 (ops.take 16)).map fun p => (p, ops.drop 16)

end Sys2Proof
end

