-- ==== Sys2Proof/Decode.lean ====
section
/-!
DEFINITION. The decoder and the encoder of command frames (spec/30_encoding.md R51 to R60). Decoding is total: a byte
sequence is one command with its operands, or illegal under a name (R57, R60). It reads no state; `MAX_DATA` is part of
the build (R204).
-/

namespace Sys2Proof

/-- The operand formats of R53. -/
inductive Format where
  | z | b1 | b2 | b4 | t8 | p16 | s32 | pd
  deriving DecidableEq, Repr

/-- The least legal frame length of a format (R53); for PD the length with no data. -/
def Format.minLength (f : Format) : Nat :=
  match f with
  | .z => 1
  | .b1 => 2
  | .b2 => 3
  | .b4 => 5
  | .t8 => 9
  | .p16 => 17
  | .s32 => 33
  | .pd => 17

/-- The legal frame lengths of a format (R53, R57 c): one length, but for PD all lengths from 17 on. -/
def Format.legalLength (f : Format) (len : Nat) : Bool :=
  match f with
  | .pd => decide (17 ≤ len)
  | .z | .b1 | .b2 | .b4 | .t8 | .p16 | .s32 => decide (len = f.minLength)

/-- A row of the opcode map (R54): the opcode, its format, and the command its operand bytes make
(none where their number is not the format's). -/
structure OpcodeRow where
  opcode : Byte
  format : Format
  read   : List Byte → Option Instr

/-- The opcode map of R54. -/
def opcodeMap : List OpcodeRow :=
  [ { opcode := 0x01, format := .s32, read := fun o => (readS32 o).map .ldseed },
    { opcode := 0x02, format := .p16, read := fun o => (readP16 o).map .seek },
    { opcode := 0x03, format := .b4,  read := fun o => (readB4 o).map .draw },
    { opcode := 0x04, format := .z,   read := fun o => (readZ o).map fun _ => .gentab },
    { opcode := 0x05, format := .t8,  read := fun o => (readT8 o).map .ldtab },
    { opcode := 0x06, format := .b2,  read := fun o => (readB2 o).map .permw },
    { opcode := 0x07, format := .b2,  read := fun o => (readB2 o).map .unpermw },
    { opcode := 0x08, format := .b1,  read := fun o => (readB1 o).map .enc },
    { opcode := 0x09, format := .b2,  read := fun o => (readB2 o).map .dec },
    { opcode := 0x0A, format := .pd,  read := fun o => (readPD o).map fun x => .encr x.1 x.2 },
    { opcode := 0x0B, format := .pd,  read := fun o => (readPD o).map fun x => .decr x.1 x.2 },
    { opcode := 0x0C, format := .z,   read := fun o => (readZ o).map fun _ => .rdstat },
    { opcode := 0x0D, format := .z,   read := fun o => (readZ o).map fun _ => .clr } ]

/-- The row an opcode selects: byte 0 compared whole (R54, mask 0xFF); none for the reserved opcodes of R58. -/
def opcodeRow (op : Byte) : Option OpcodeRow :=
  opcodeMap.find? fun r => r.opcode == op

/-- Why a frame is illegal: the four cases of R57. All are answered IllegalCommand (R173). -/
inductive Illegal where
  /-- R57 a: the frame has no byte -/
  | empty
  /-- R57 b, R58: byte 0 is 0x00 or 0x0E to 0xFF -/
  | reservedOpcode (op : Byte)
  /-- R57 c: the length is not one of the opcode's format -/
  | wrongLength (op : Byte) (len : Nat)
  /-- R57 d: ENCR or DECR with more data than a numeric `MAX_DATA` -/
  | overMaxData (len : Nat)
  deriving DecidableEq, Repr

/-- The decoder (R51, R54, R57, R60) of a block whose `MAX_DATA` is `max`. -/
def decode (max : Option Nat) (f : Frame) : Except Illegal Instr :=
  match f with
  | [] => .error .empty
  | op :: ops =>
    match opcodeRow op with
    | none => .error (.reservedOpcode op)
    | some row =>
      match row.read ops with
      | none => .error (.wrongLength op f.length)
      | some i => if i.wf max then .ok i else .error (.overMaxData (f.length - 17))

/-- The frame of a command (R53 to R55). -/
def encode (i : Instr) : Frame :=
  match i with
  | .ldseed s => 0x01 :: s.toList
  | .seek p => 0x02 :: beBytes 16 p.toNat
  | .draw n => 0x03 :: beBytes 4 n.toNat
  | .gentab => [0x04]
  | .ldtab t => 0x05 :: packTable t
  | .permw u => 0x06 :: be2 u
  | .unpermw w => 0x07 :: be2 w
  | .enc b => [0x08, b]
  | .dec c => 0x09 :: be2 c
  | .encr p d => 0x0A :: (beBytes 16 p.toNat ++ d)
  | .decr p d => 0x0B :: (beBytes 16 p.toNat ++ d)
  | .rdstat => [0x0C]
  | .clr => [0x0D]

/-- The `n` bytes of `w`, the first one bits 7..0 (the numbering of spec/opcode_table.json). -/
def littleBytes (n w : Nat) : List Byte :=
  match n with
  | 0 => []
  | k + 1 => BitVec.ofNat 8 w :: littleBytes k (w / 256)

/-- The frame whose bits are `w` in the opcode table's numbering: its `nbits / 8` bytes, followed by zero bytes up to the
least length of its opcode's format (log 11). -/
def tableFrame (nbits w : Nat) : Frame :=
  let given := littleBytes (nbits / 8) w
  match given with
  | [] => []
  | op :: _ =>
    match opcodeRow op with
    | none => given
    | some row => given ++ List.replicate (row.format.minLength - given.length) 0

/-- The command this decoder reads from the bits `w` (opcode table numbering), for the build of the reset state. -/
def decodeTableWord (nbits w : Nat) : Option Instr :=
  match decode Config.build.maxData (tableFrame nbits w) with
  | .ok i => some i
  | .error _ => none

end Sys2Proof
end

