-- ==== Sys2Proof/Machine/State.lean ====
section
/-!
DEFINITION. The state of the block, what can end a run, and the state after reset (spec/10_state.md R10 to R21,
spec/30_encoding.md R50, spec/70_reset_and_hazards.md R200). The block has no memory (spec/20_memory.md R33) and no
program counter (R16).
-/

namespace Sys2Proof.Machine

/-- One move of the host (R207): what it may do to the block from outside. -/
inductive HostMove where
  /-- offer a command frame on the command port; it waits there while the block cannot accept it (R42) -/
  | send (f : Frame)
  /-- take the response frame from the response port; with no response there, nothing happens -/
  | take
  /-- assert the reset input (R200) -/
  | reset
  deriving DecidableEq, Repr

/-- What the block itself holds: every piece of state the spec gives the machine, and nothing else (R15, R19). -/
structure Block where
  /-- `SEED` (R10) -/
  seed       : Seed
  /-- `SEED_VALID` (R11) -/
  seedValid  : Bool
  /-- `POS` (R12): the position of the next keystream word -/
  pos        : Position
  /-- `TABLE` (R13) -/
  table      : Table
  /-- `TABLE_VALID` (R14) -/
  tableValid : Bool
  /-- the command port (R50): frames offered and not yet accepted, oldest first (R42) -/
  cmdPort    : List Frame
  /-- the response port (R50): the response sent and not yet taken (R52, R207) -/
  rspPort    : Option Frame
  /-- a command is in progress whose draw never accepts: it will never respond (R76, R183; log 6) -/
  hung       : Bool
  deriving DecidableEq, Repr

/-- All that `step` is given: the block's state, and beside it the two arguments of `blockStep`, which are no state of the
block: the build (R204, configuration; log 2) and what the host does (R207, input; log 5). -/
structure State extends Block where
  /-- the build (R204): an argument of `blockStep`, of which a step hands back no new value (log 2) -/
  build      : Build
  /-- what the host does next, in order (R207; log 5) -/
  hostMoves  : List HostMove
  deriving DecidableEq, Repr

/-- Why the machine would stop with a fault: never. "There is no fault state, no sticky error bit, no lock-out" (R170):
every error is a response, and the hang is the state `hung`. So there is no constructor (log 21). -/
inductive Fault : Type where
  deriving DecidableEq, Repr

/-- Why the model gives a command no meaning. -/
inductive Refusal where
  /-- raised by an arm of exec for a command not modelled yet; safe: the model stops -/
  | notModelled (mnemonic : String)
  /-- raised by PERMW, UNPERMW, ENC and DEC where `TABLE_VALID` = 1 but `TABLE` is no permutation, for which Perm16 and
  Unperm16 have no meaning (spec/93_implementation_defined.md U6); safe: the model stops, and no run reaches it
  (R13, R94; log 12) -/
  | tableNotPermutation
  deriving DecidableEq, Repr

/-- The block right after reset (R21, R200), with the ports empty (log 8). -/
def Block.reset : Block :=
  { seed := Seed.zero, seedValid := false, pos := 0, table := Table.zero, tableValid := false,
    cmdPort := [], rspPort := none, hung := false }

/-- The state right after reset: the block after reset, of the build the model is run with (log 3), and a host that does
nothing. -/
def State.reset : State :=
  { toBlock := Block.reset, build := Config.build, hostMoves := [] }

end Sys2Proof.Machine
end

