-- ==== Sys2Proof/Machine/Flags.lean ====
section
/-!
DEFINITION. The two flags and the register writes that set or clear them (spec/10_state.md R11, R14, R18), and the
status view (R17). The block has no arithmetic condition codes (R18).
-/

namespace Sys2Proof.Machine

/-- `STATUS` (R17): bit 0 is `SEED_VALID`, bit 1 is `TABLE_VALID`, bits 7:2 are 0. -/
def Block.status (s : Block) : Byte :=
  BitVec.ofNat 8 (s.tableValid.toNat * 2 + s.seedValid.toNat)

/-- The writes of LDSEED (R70): sets `SEED_VALID`, clears `TABLE_VALID`. -/
def Block.loadSeed (s : Block) (k : Seed) : Block :=
  { s with seed := k, seedValid := true, pos := 0, table := Table.zero, tableValid := false }

/-- `TABLE <- T ; TABLE_VALID <- 1` (R90, R91, R113, R114). -/
def Block.loadTable (s : Block) (t : Table) : Block :=
  { s with table := t, tableValid := true }

/-- `POS <- p` (R71, R73, R113, R114). -/
def Block.setPos (s : Block) (p : Position) : Block :=
  { s with pos := p }

/-- Every register to its reset value (R131, R21): clears both flags. -/
def Block.clearRegisters (s : Block) : Block :=
  { s with seed := Seed.zero, seedValid := false, pos := 0, table := Table.zero, tableValid := false }

end Sys2Proof.Machine
end

