-- ==== Sys2Proof/Machine/Generators.lean ====
section
/-!
DEFINITION. The words of each generator a block can be fitted with: the chip's open `GEN` (spec/20_memory.md R32) and
the stand-ins of spec/95_test_vectors.md section 2.
-/

namespace Sys2Proof.Machine

/-- `CGEN(S, p) = p mod 2^32`. -/
def cgen (_ : Seed) (p : Position) : Word :=
  p.setWidth 32

/-- `mix32` of spec/95_test_vectors.md section 2; products are modulo 2^32. -/
def mix32 (x : Word) : Word :=
  let x := x ^^^ (x >>> 16)
  let x := x * 0x7FEB352D#32
  let x := x ^^^ (x >>> 15)
  let x := x * 0x846CA68B#32
  x ^^^ (x >>> 16)

/-- `TGEN(S, p) = mix32((p mod 2^32) xor from_be(S[28..32]))`. -/
def tgen (s : Seed) (p : Position) : Word :=
  mix32 (p.setWidth 32 ^^^ BitVec.ofNat 32 (fromBE (s.toList.drop 28)))

/-- `ONES(S, p) = 0xFFFFFFFF`. -/
def ones (_ : Seed) (_ : Position) : Word :=
  0xFFFFFFFF

/-- The generator a build names. -/
def genOf (g : GenId) : Gen :=
  match g with
  | .chip => Config.gen
  | .cgen => cgen
  | .tgen => tgen
  | .ones => ones

/-- `GEN` of the block a step is given (R204). -/
def State.gen (s : State) : Gen :=
  genOf s.build.gen

end Sys2Proof.Machine
end

