-- ==== Sys2Proof/Machine/Ops.lean ====
section
/-!
DEFINITION. The shared operations of the commands: reading the keystream (spec/20_memory.md R31), the bounded draw
(spec/40_keystream.md R73), the response (spec/30_encoding.md R52), taking an error (spec/60_exceptions.md R179) and the
hang (R76, R183). There is no return from an error, because an error enters nothing (R182).
-/

namespace Sys2Proof.Machine

/-- `MemRead(p, n)` of R31: n consecutive words from position p, wrapping modulo 2^128. -/
def memRead (g : Gen) (seed : Seed) (p : Position) (n : Nat) : List Word :=
  match n with
  | 0 => []
  | k + 1 => g seed p :: memRead g seed (p + 1) k

/-- `KSRead(p)` of R31. -/
def ksRead (g : Gen) (seed : Seed) (p : Position) : Word :=
  g seed p

/-- What reading the keystream for a result comes to: the result and the `POS` it leaves, or a draw that never accepts,
which began at `pos` (R76). -/
inductive Drawn (α : Type) where
  | done (value : α) (pos : Position)
  | endless (pos : Position)
  deriving DecidableEq, Repr

/-- `bitlen(x)` of R7: the least k with x < 2^k. -/
def bitlen (x : Nat) : Nat :=
  if x = 0 then 0 else Nat.log2 x + 1

/-- Up to `fuel` attempts of a draw (the loop of R73) from position `p`, keeping the low `k` bits of each word and
accepting below `n`; `start` is where the draw began. -/
def attempts (g : Gen) (seed : Seed) (n k : Nat) (start : Position) (fuel : Nat) (p : Position) : Drawn Nat :=
  match fuel with
  | 0 => .endless start
  | f + 1 =>
    let v := (ksRead g seed p).toNat % 2 ^ k
    if v < n then .done v (p + 1) else attempts g seed n k start f (p + 1)

/-- `NextBounded(n)` of R73, from `POS` = `p`. After 2^128 rejections every position has been read and GEN is pure, so
the loop never ends: exactly the hang of R76 (log 7). -/
def nextBounded (g : Gen) (seed : Seed) (n : Nat) (p : Position) : Drawn Nat :=
  attempts g seed n (bitlen (n - 1)) p (2 ^ 128) p

/-- The error kinds of R171. The block sends the first six; the other four are the host's, their codes reserved (R172). -/
inductive ErrorKind where
  | illegalCommand | illegalOperand | noSeed | noTable | lengthMismatch | corrupt
  | tooShort | noMagic | invalidEncoding | invalidUtf8
  deriving DecidableEq, Repr

/-- The status byte of an error kind (R171). -/
def ErrorKind.code (e : ErrorKind) : Byte :=
  match e with
  | .illegalCommand => 0x01
  | .illegalOperand => 0x02
  | .noSeed => 0x03
  | .noTable => 0x04
  | .lengthMismatch => 0x10
  | .corrupt => 0x11
  | .tooShort => 0x12
  | .noMagic => 0x13
  | .invalidEncoding => 0x14
  | .invalidUtf8 => 0x15

/-- What a part of a command comes to: a result, a `raise` (R7), or a draw that never ends; each with the registers as
written so far (R179). -/
inductive Ran (α : Type) where
  | done (value : α) (s : Block)
  | failed (e : ErrorKind) (s : Block)
  | hung (s : Block)
  deriving DecidableEq, Repr

/-- The next part of a command runs where this one has a result. -/
def Ran.bind {α β : Type} (r : Ran α) (k : α → Block → Ran β) : Ran β :=
  match r with
  | .done a s => k a s
  | .failed e s => .failed e s
  | .hung s => .hung s

/-- `respond OK(payload)` (R7, R52): status byte 0x00, then the payload, on the response port. -/
def respondOk (payload : List Byte) (s : Block) : Host.Outcome Block Fault Refusal :=
  .next { s with rspPort := some (0x00 :: payload) }

/-- TAKING AN ERROR (R179): the command stops, the response is the one status byte, the registers stay as written before
the raise, and nothing else changes; there is no handler, saved state or mode. -/
def raise (e : ErrorKind) (s : Block) : Host.Outcome Block Fault Refusal :=
  .next { s with rspPort := some [e.code] }

/-- The hang (R76, R183): no response, and the command stays in progress for ever (log 6). -/
def hang (s : Block) : Host.Outcome Block Fault Refusal :=
  .next { s with hung := true }

/-- The end of a command: its response, its error, or its hang. -/
def finish (r : Ran (List Byte)) : Host.Outcome Block Fault Refusal :=
  match r with
  | .done payload s => respondOk payload s
  | .failed e s => raise e s
  | .hung s => hang s

/-- `v = NextBounded(n)` inside a command, on a block built as `b`: `POS` moves by the attempts made (R73). -/
def drawInto (b : Build) (n : Nat) (s : Block) : Ran Nat :=
  match nextBounded (genOf b.gen) s.seed n s.pos with
  | .done v p => .done v (s.setPos p)
  | .endless p => .hung (s.setPos p)

/-- An outcome with its next state, where it has one, replaced by a function of it. -/
def mapNext {α β : Type} (f : α → β) (o : Host.Outcome α Fault Refusal) : Host.Outcome β Fault Refusal :=
  match o with
  | .next a => .next (f a)
  | .fault r => .fault r
  | .refused r => .refused r

/-- A command on the block of `s`: a function of the build and the block, which answers a block and nothing else, so that
no command writes the build (R204) or the host's moves. -/
def onBlock (s : State) (f : Build → Block → Host.Outcome Block Fault Refusal) : Host.Outcome State Fault Refusal :=
  mapNext (fun t => { s with toBlock := t }) (f s.build s.toBlock)

end Sys2Proof.Machine
end

