-- ==== Sys2Proof/Machine/PermTable.lean ====
section
/-!
DEFINITION. The permutation table generator and its commands GENTAB, LDTAB (spec/41_permutation_table.md R90 to R97).
-/

namespace Sys2Proof.Machine

/-- `pool = [0, 1, 2, ..., 15]` (R92). -/
def fullPool : List Nibble :=
  [0, 1, 2, 3, 4, 5, 6, 7, 8, 9, 10, 11, 12, 13, 14, 15]

/-- The last `m` rounds of R92, from a pool of `m` entries: draw an index below the pool's size, remove that element
keeping the order of the rest, and put it before the elements of the later rounds. -/
def generateRounds (g : Gen) (seed : Seed) (m : Nat) (pool : List Nibble) (p : Position) : Drawn (List Nibble) :=
  match m with
  | 0 => .done [] p
  | k + 1 =>
    match nextBounded g seed (k + 1) p with
    | .endless q => .endless q
    | .done idx q =>
      match generateRounds g seed k (pool.eraseIdx idx) q with
      | .endless r => .endless r
      | .done rest r => .done (pool.getD idx 0 :: rest) r

/-- Sixteen entries as a table. -/
def tableOfList (l : List Nibble) : Table :=
  Vector.ofFn fun i : Fin 16 => l.getD i.val 0

/-- `Generate()` of R92, from `POS` = `p`: sixteen draws of range sizes 16, 15, ..., 1. -/
def generate (g : Gen) (seed : Seed) (p : Position) : Drawn Table :=
  match generateRounds g seed 16 fullPool p with
  | .endless q => .endless q
  | .done l q => .done (tableOfList l) q

/-- `IsPerm(t)` of R93: every value 0..15 occurs exactly once. -/
def isPerm (t : Table) : Bool :=
  fullPool.all fun v => t.toList.count v == 1

/-- `T = Generate() ; TABLE <- T ; TABLE_VALID <- 1` (R90, R113, R114); under a hang `TABLE` is not written (R90). -/
def newTable (b : Build) (s : Block) : Ran Table :=
  match generate (genOf b.gen) s.seed s.pos with
  | .done t p => .done t ((s.setPos p).loadTable t)
  | .endless p => .hung (s.setPos p)

/-- GENTAB (R90): NoSeed, else a new table, whose packed form is the payload. -/
def execGentab (s : State) : Host.Outcome State Fault Refusal :=
  onBlock s fun b t =>
    if t.seedValid = false then raise .noSeed t
    else finish ((newTable b t).bind fun table u => .done (packTable table) u)

/-- LDTAB (R91): IllegalOperand unless t is a permutation; needs no seed. -/
def execLdtab (t : Table) (s : State) : Host.Outcome State Fault Refusal :=
  onBlock s fun _ u => if isPerm t = false then raise .illegalOperand u else respondOk [] (u.loadTable t)

end Sys2Proof.Machine
end

