-- ==== Sys2Proof/Machine/Cipher.lean ====
section
/-!
DEFINITION. The bit-permutation cipher (spec/42_bit_permutation_cipher.md R100 to R114): its functions, bottom up, then
PERMW, UNPERMW, ENC, DEC, ENCR, DECR.
-/

namespace Sys2Proof.Machine

/-- `Double(b)` of R100, `cpl8(b) * 256 + b`: the byte in the low 8 bits, its complement in the high 8 bits. -/
def double (b : Byte) : UnitValue :=
  BitVec.ofNat 16 ((~~~b).toNat * 256 + b.toNat)

/-- The 16-bit value with a 1 at position `j` for each pair (true, j), positions counted from the least significant
bit (R35). -/
def placeBits (l : List (Bool × Nibble)) : UnitValue :=
  l.foldr (fun x w => (if x.1 then 1#16 <<< x.2.toNat else 0#16) ||| w) 0#16

/-- `Perm16(T, u)` of R101, for a permutation T: bit i of u moves to position T[i]. -/
def perm16 (t : Table) (u : UnitValue) : UnitValue :=
  placeBits ((List.finRange 16).map fun i => (u.getLsbD i.val, t[i]))

/-- `Unperm16(T, w)` of R102, for a permutation T: bit T[i] of w is placed at position i. -/
def unperm16 (t : Table) (w : UnitValue) : UnitValue :=
  placeBits ((List.finRange 16).map fun i => (w.getLsbD t[i].toNat, BitVec.ofFin i))

/-- `Check(u)` of R104: the high byte is the complement of the low byte. -/
def check (u : UnitValue) : Bool :=
  u.extractLsb' 8 8 == ~~~(u.extractLsb' 0 8)

/-- `EncodeUnit(T, b)` of R105: two bytes. -/
def encodeUnit (t : Table) (b : Byte) : List Byte :=
  be2 (perm16 t (double b))

/-- `DecodeUnit(T, c)` of R106, for the two bytes hi, lo; none is Corrupt. -/
def decodeUnit (t : Table) (hi lo : Byte) : Option Byte :=
  let u := unperm16 t (ofBe2 hi lo)
  if check u then some (u.extractLsb' 0 8) else none

/-- The loop of `EncryptRaw` (R113): per byte a new table, then EncodeUnit. -/
def encryptUnits (b : Build) (d : List Byte) (s : Block) : Ran (List Byte) :=
  match d with
  | [] => .done [] s
  | x :: rest => (newTable b s).bind fun t s1 => (encryptUnits b rest s1).bind fun out s2 => .done (encodeUnit t x ++ out) s2

/-- `EncryptRaw(p, d)` of R113. -/
def encryptRaw (b : Build) (p : Position) (d : List Byte) (s : Block) : Ran (List Byte) :=
  encryptUnits b d (s.setPos p)

/-- The loop of `DecryptRaw` (R114): per pair of bytes a new table, then DecodeUnit; Corrupt ends it, and no decoded
byte is returned. A single last byte does not occur, `decryptRaw` having tested the length. -/
def decryptUnits (b : Build) (d : List Byte) (s : Block) : Ran (List Byte) :=
  match d with
  | [] => .done [] s
  | [_] => .failed .lengthMismatch s
  | hi :: lo :: rest => (newTable b s).bind fun t s1 =>
      match decodeUnit t hi lo with
      | none => .failed .corrupt s1
      | some x => (decryptUnits b rest s1).bind fun out s2 => .done (x :: out) s2

/-- `DecryptRaw(p, d)` of R114: the length test comes before the seek. -/
def decryptRaw (b : Build) (p : Position) (d : List Byte) (s : Block) : Ran (List Byte) :=
  if d.length % 2 = 1 then .failed .lengthMismatch s else decryptUnits b d (s.setPos p)

/-- A command on the current table: NoTable where there is none (R176). Perm16 and Unperm16 have no meaning for a table
that is no permutation (spec/93_implementation_defined.md U6): refused there, which no run reaches (R13; log 12). -/
def withTable (s : Block) (k : Table → Host.Outcome Block Fault Refusal) : Host.Outcome Block Fault Refusal :=
  if s.tableValid = false then raise .noTable s
  else if isPerm s.table = true then k s.table
  else .refused .tableNotPermutation

/-- PERMW (R107). -/
def execPermw (u : UnitValue) (s : State) : Host.Outcome State Fault Refusal :=
  onBlock s fun _ a => withTable a fun t => respondOk (be2 (perm16 t u)) a

/-- UNPERMW (R108). -/
def execUnpermw (w : UnitValue) (s : State) : Host.Outcome State Fault Refusal :=
  onBlock s fun _ a => withTable a fun t => respondOk (be2 (unperm16 t w)) a

/-- ENC (R109). -/
def execEnc (b : Byte) (s : State) : Host.Outcome State Fault Refusal :=
  onBlock s fun _ a => withTable a fun t => respondOk (encodeUnit t b) a

/-- DEC (R110): `DecodeUnit(TABLE, be_2(c))`, Corrupt where the check fails. -/
def execDec (c : UnitValue) (s : State) : Host.Outcome State Fault Refusal :=
  onBlock s fun _ a => withTable a fun t =>
    match decodeUnit t (c.extractLsb' 8 8) (c.extractLsb' 0 8) with
    | none => raise .corrupt a
    | some b => respondOk [b] a

/-- ENCR (R111). -/
def execEncr (p : Position) (d : List Byte) (s : State) : Host.Outcome State Fault Refusal :=
  onBlock s fun b a => if a.seedValid = false then raise .noSeed a else finish (encryptRaw b p d a)

/-- DECR (R112): LengthMismatch from the frame alone, then NoSeed, then the units. -/
def execDecr (p : Position) (d : List Byte) (s : State) : Host.Outcome State Fault Refusal :=
  onBlock s fun b a =>
    if d.length % 2 = 1 then raise .lengthMismatch a
    else if a.seedValid = false then raise .noSeed a
    else finish (decryptRaw b p d a)

end Sys2Proof.Machine
end

