-- ==== Sys2Proof/Machine/Keystream.lean ====
section
/-!
DEFINITION. The keystream commands LDSEED, SEEK, DRAW (spec/40_keystream.md R70 to R72).
-/

namespace Sys2Proof.Machine

/-- LDSEED (R70): every 32-byte value is a seed; it cannot fail. -/
def execLdseed (k : Seed) (s : State) : Host.Outcome State Fault Refusal :=
  onBlock s fun _ t => respondOk [] (t.loadSeed k)

/-- SEEK (R71): NoSeed, else `POS <- p`; no position is invalid. -/
def execSeek (p : Position) (s : State) : Host.Outcome State Fault Refusal :=
  onBlock s fun _ t => if t.seedValid = false then raise .noSeed t else respondOk [] (t.setPos p)

/-- DRAW (R72): IllegalOperand for n = 0 first (R180), then NoSeed, then the draw; the payload is be_4(v). -/
def execDraw (n : BitVec 32) (s : State) : Host.Outcome State Fault Refusal :=
  onBlock s fun b t =>
    if n = 0 then raise .illegalOperand t
    else if t.seedValid = false then raise .noSeed t
    else finish ((drawInto b n.toNat t).bind fun v u => .done (beBytes 4 v) u)

end Sys2Proof.Machine
end

