-- ==== Sys2Proof/Machine/System.lean ====
section
/-!
DEFINITION. The system commands RDSTAT, CLR (spec/43_system.md R130, R131); there is no other (R132).
-/

namespace Sys2Proof.Machine

/-- RDSTAT (R130): the status view; changes no register. -/
def execRdstat (s : State) : Host.Outcome State Fault Refusal :=
  onBlock s fun _ t => respondOk [t.status] t

/-- CLR (R131): every register to its reset value. -/
def execClr (s : State) : Host.Outcome State Fault Refusal :=
  onBlock s fun _ t => respondOk [] t.clearRegisters

end Sys2Proof.Machine
end

