-- ==== Sys2Proof/Machine/Dispatch.lean ====
section
/-!
DEFINITION. One arm per command (spec/30_encoding.md R54).
-/

namespace Sys2Proof.Machine

def exec (i : Instr) (s : State) : Host.Outcome State Fault Refusal :=
  match i with
  | .ldseed k => Sys2Proof.Machine.execLdseed k s
  | .seek p => Sys2Proof.Machine.execSeek p s
  | .draw n => Sys2Proof.Machine.execDraw n s
  | .gentab => Sys2Proof.Machine.execGentab s
  | .ldtab t => Sys2Proof.Machine.execLdtab t s
  | .permw u => Sys2Proof.Machine.execPermw u s
  | .unpermw w => Sys2Proof.Machine.execUnpermw w s
  | .enc b => Sys2Proof.Machine.execEnc b s
  | .dec c => Sys2Proof.Machine.execDec c s
  | .encr p d => Sys2Proof.Machine.execEncr p d s
  | .decr p d => Sys2Proof.Machine.execDecr p d s
  | .rdstat => Sys2Proof.Machine.execRdstat s
  | .clr => Sys2Proof.Machine.execClr s

end Sys2Proof.Machine
end

