-- ==== Sys2Proof/Machine/Block.lean ====
section
/-!
DEFINITION. What the block does with its ports (spec/30_encoding.md R50, spec/20_memory.md R42, spec/70_reset_and_hazards.md
R200, R201, R207): accepting a frame, the host's moves, reset, the endless draw.
-/

namespace Sys2Proof.Machine

/-- A command on a block alone: what `exec` makes of it, the build being an argument (R204). -/
def execBlock (b : Build) (i : Instr) (s : Block) : Host.Outcome Block Fault Refusal :=
  mapNext State.toBlock (exec i { toBlock := s, build := b, hostMoves := [] })

/-- An accepted frame is decoded and run; an illegal one is answered IllegalCommand with no change (R57, R173). -/
def runFrame (b : Build) (f : Frame) (s : Block) : Host.Outcome Block Fault Refusal :=
  match decode b.maxData f with
  | .error _ => raise .illegalCommand s
  | .ok i => execBlock b i s

/-- The host makes its next move (R207); with none, nothing changes (R24, R185). Reset puts every register in its reset
value and drops a command in progress or waiting without a response (R200, R201; log 8). -/
def hostActs (moves : List HostMove) (s : Block) : Block × List HostMove :=
  match moves with
  | [] => (s, [])
  | .send f :: rest => ({ s with cmdPort := s.cmdPort ++ [f] }, rest)
  | .take :: rest => ({ s with rspPort := none }, rest)
  | .reset :: rest => (Block.reset, rest)

/-- One more rejected attempt of the draw that never accepts: `POS` advances by one (R73, R76; log 6). -/
def spin (s : Block) : Block :=
  s.setPos (s.pos + 1)

/-- The host is about to assert reset, which takes effect at once, whatever the block is doing (R201, R207; log 9). -/
def resetAsserted (moves : List HostMove) : Bool :=
  match moves with
  | .reset :: _ => true
  | _ => false

/-- The frame the block can accept now (R42, R207): none while a command is in progress or a response is not taken. -/
def acceptable (s : Block) : Option (Frame × Block) :=
  match s.hung, s.rspPort, s.cmdPort with
  | false, none, f :: rest => some (f, { s with cmdPort := rest })
  | _, _, _ => none

/-- THE STEP FUNCTION of a block (R41, R42; log 5). `GEN` and `MAX_DATA` are its argument `b`, configuration and not state
(R204), and so is what the host does. Reset takes effect at once; else the block runs one whole command if it can accept
one; else the host makes its next move, while an endless draw goes on. -/
def blockStep (b : Build) (moves : List HostMove) (s : Block) : Host.Outcome (Block × List HostMove) Fault Refusal :=
  if resetAsserted moves then .next (hostActs moves s)
  else
    match acceptable s with
    | some (f, t) => mapNext (fun u => (u, moves)) (runFrame b f t)
    | none => .next (hostActs moves (if s.hung then spin s else s))

/-- One step of all that `step` is given: `blockStep` of the build, the host's moves and the block. -/
def stepState (s : State) : Host.Outcome State Fault Refusal :=
  mapNext (fun r => { toBlock := r.1, build := s.build, hostMoves := r.2 }) (blockStep s.build s.hostMoves s.toBlock)

/-- The state in which frame `f` is the next one the block accepts: no command in progress, no response waiting to be
taken, no reset asserted, and `f` first on the command port. -/
def placeFrame (f : Frame) (s : State) : State :=
  { s with cmdPort := f :: s.cmdPort, rspPort := none, hung := false,
           hostMoves := if resetAsserted s.hostMoves then [] else s.hostMoves }

end Sys2Proof.Machine
end

