-- ==== Sys2Proof/Machine/Step.lean ====
section
/-!
DEFINITION. The step of the machine (spec/20_memory.md R41, R42), and how a frame is placed for the next step.
-/

namespace Sys2Proof.Machine

/-- One step: a whole command, a move of the host, or an attempt of an endless draw. The step function whose arguments are
the build and the block's state (R204) is `blockStep`; the type fixed for this one pairs them in `State` (log 2). -/
def step (s : State) : Host.Outcome State Fault Refusal :=
  stepState s

/-- `s` with the frame whose bits are `w` (opcode table numbering) next to be accepted (log 10, 11). -/
def State.withFetchWord (s : State) (nbits w : Nat) : State :=
  placeFrame (tableFrame nbits w) s

end Sys2Proof.Machine
end

