-- ==== Sys2Proof/Machine/Expansion.lean ====
section
/-!
DEFINITION. Command sequences of the host: the source's operations as pseudo-instructions (spec/30_encoding.md R62), and
ENCR and DECR issued unit by unit (R63). The host sends one frame, takes its response, and only then sends the next.
-/

namespace Sys2Proof.Machine

/-- The host sends the frame `f` to an idle block and takes the response; none where none ever comes (R76). -/
def sendFrame (f : Frame) (s : State) : Option (Frame × State) :=
  match onBlock s (fun b t => runFrame b f t) with
  | .next t =>
    match t.hung, t.rspPort with
    | false, some r => some (r, { t with rspPort := none })
    | _, _ => none
  | .fault _ => none
  | .refused _ => none

/-- The host sends command `i` to an idle block and takes the response. -/
def ask (i : Instr) (s : State) : Option (Frame × State) :=
  sendFrame (encode i) s

/-- An OK response (R52). -/
def isOk (r : Frame) : Bool :=
  r.head? == some 0x00

/-- The responses to commands sent in order, up to the first error response, and the state then. -/
def runCommands (l : List Instr) (s : State) : Option (List Frame × State) :=
  match l with
  | [] => some ([], s)
  | i :: rest =>
    match ask i s with
    | none => none
    | some (r, t) =>
      if isOk r then
        match runCommands rest t with
        | none => none
        | some (rs, u) => some (r :: rs, u)
      else some ([r], t)

/-- The source's operations (R62). -/
inductive SourceOp where
  | keystream (seed : Seed)
  | seek (p : Position)
  | nextBounded (n : BitVec 32)
  | generate
  | encodeUnit (t : Table) (b : Byte)
  | decodeUnit (t : Table) (hi lo : Byte)
  | encryptRaw (seed : Seed) (p : Position) (d : List Byte)
  | decryptRaw (seed : Seed) (p : Position) (d : List Byte)
  deriving DecidableEq, Repr

/-- The expansion of each source operation into commands (R62). -/
def expandSource (op : SourceOp) : List Instr :=
  match op with
  | .keystream seed => [.ldseed seed]
  | .seek p => [.seek p]
  | .nextBounded n => [.draw n]
  | .generate => [.gentab]
  | .encodeUnit t b => [.ldtab t, .enc b]
  | .decodeUnit t hi lo => [.ldtab t, .dec (ofBe2 hi lo)]
  | .encryptRaw seed p d => [.ldseed seed, .encr p d]
  | .decryptRaw seed p d => [.ldseed seed, .decr p d]

/-- A pseudo-instruction's response: that of the last command, or the first error response (R62). -/
def runSource (op : SourceOp) (s : State) : Option (Frame × State) :=
  match runCommands (expandSource op) s with
  | none => none
  | some (rs, t) => some (rs.getLastD [], t)

/-- `ENCR p, d` as commands (R63): SEEK p, then per byte GENTAB and ENC. -/
def encrExpansion (p : Position) (d : List Byte) : List Instr :=
  .seek p :: d.flatMap fun b => [.gentab, .enc b]

/-- The pairs of `DECR` data as commands (R63): GENTAB, then DEC of the pair read big-endian. -/
def decUnits (d : List Byte) : List Instr :=
  match d with
  | hi :: lo :: rest => .gentab :: .dec (ofBe2 hi lo) :: decUnits rest
  | _ => []

/-- `DECR p, d`, for data of even length, as commands (R63). -/
def decrExpansion (p : Position) (d : List Byte) : List Instr :=
  .seek p :: decUnits d

/-- The payloads of every second response, concatenated in order: those of ENC or DEC, not of GENTAB (R63). -/
def unitPayloads (rs : List Frame) : List Byte :=
  match rs with
  | _ :: r :: rest => r.drop 1 ++ unitPayloads rest
  | _ => []

/-- The answer the host makes of a hand-issued sequence (R63): the first error response alone, else OK with the unit
payloads. -/
def byHand (l : List Instr) (s : State) : Option (Frame × State) :=
  match runCommands l s with
  | none => none
  | some (rs, t) =>
    match rs.find? (fun r => !isOk r) with
    | some e => some (e, t)
    | none => some (0x00 :: unitPayloads rs.tail, t)

/-- The host encrypts raw data under the loaded seed: ENCR, or its expansion where the data are over `MAX_DATA` (R63;
log 19). -/
def rawEncrypt (p : Position) (d : List Byte) (s : State) : Option (Frame × State) :=
  if withinMaxData s.build.maxData d.length then ask (.encr p d) s else byHand (encrExpansion p d) s

/-- The host decrypts raw data under the loaded seed: DECR, or its expansion where the data are over `MAX_DATA`, with the
host's duty to check the length first (R63, R207). -/
def rawDecrypt (p : Position) (d : List Byte) (s : State) : Option (Frame × State) :=
  if withinMaxData s.build.maxData d.length then ask (.decr p d) s
  else if d.length % 2 = 1 then some ([ErrorKind.lengthMismatch.code], s)
  else byHand (decrExpansion p d) s

end Sys2Proof.Machine
end

