-- ==== Sys2Proof/Machine/Text.lean ====
section
/-!
DEFINITION. What the host's message is: text, that is bytes which are valid UTF-8 (spec/48_host_envelope.md R140, and step
7 of R144). The spec names UTF-8 and leaves its definition to the encoding's own standard (log 24). Outside the block.
-/

namespace Sys2Proof.Machine

/-- A range of byte values, both ends in it. -/
structure ByteRange where
  first : Byte
  last  : Byte
  deriving DecidableEq, Repr

/-- The byte is in the range. -/
def ByteRange.has (r : ByteRange) (x : Byte) : Bool :=
  decide (r.first.toNat ≤ x.toNat ∧ x.toNat ≤ r.last.toNat)

/-- The values a byte of a character may have after its second one: 80 to BF. -/
def utf8Tail : ByteRange :=
  { first := 0x80, last := 0xBF }

/-- The bytes that must follow the first byte `a` of a character, one range per byte; none where no character begins with
`a`. The narrowed second bytes shut out overlong forms (E0, F0), surrogates (ED) and values above 10FFFF (F4). -/
def utf8Follow (a : Byte) : Option (List ByteRange) :=
  if a.toNat ≤ 0x7F then some []
  else if 0xC2 ≤ a.toNat ∧ a.toNat ≤ 0xDF then some [utf8Tail]
  else if a = 0xE0 then some [{ first := 0xA0, last := 0xBF }, utf8Tail]
  else if a = 0xED then some [{ first := 0x80, last := 0x9F }, utf8Tail]
  else if 0xE1 ≤ a.toNat ∧ a.toNat ≤ 0xEF then some [utf8Tail, utf8Tail]
  else if a = 0xF0 then some [{ first := 0x90, last := 0xBF }, utf8Tail, utf8Tail]
  else if a = 0xF4 then some [{ first := 0x80, last := 0x8F }, utf8Tail, utf8Tail]
  else if 0xF1 ≤ a.toNat ∧ a.toNat ≤ 0xF3 then some [utf8Tail, utf8Tail, utf8Tail]
  else none

/-- The bytes finish the character begun, of which the ranges `pending` are still to come, and go on in whole characters. -/
def utf8From (pending : List ByteRange) (s : List Byte) : Bool :=
  match s, pending with
  | [], [] => true
  | [], _ :: _ => false
  | x :: rest, r :: more => r.has x && utf8From more rest
  | x :: rest, [] =>
    match utf8Follow x with
    | none => false
    | some more => utf8From more rest

/-- The bytes are valid UTF-8. -/
def validUtf8 (s : List Byte) : Bool :=
  utf8From [] s

/-- A text (R140): bytes that are valid UTF-8. -/
structure Text where
  bytes  : List Byte
  isText : validUtf8 bytes = true
  deriving DecidableEq, Repr

/-- `utf8-decode` of R144 step 7; none is InvalidUTF8. -/
def readText (bytes : List Byte) : Option Text :=
  if h : validUtf8 bytes = true then some { bytes := bytes, isText := h } else none

end Sys2Proof.Machine
end

