-- ==== Sys2Proof/Machine/Envelope.lean ====
section
/-!
DEFINITION. The host's encrypt and decrypt as it drives the block (spec/48_host_envelope.md R140 to R149). Outside the
block (spec/00_scope.md R3); no definition of the block uses this file. `MARKER`, `OFFSET_RANGE`, `KDF` and `B64` are
arguments (R6, decisions D25 to D28 of the spec; log 18).
-/

namespace Sys2Proof.Machine

/-- `OFFSET_RANGE` (R146): (a) the full range, or (b) the reference's small range, which starts at 0 and whose last
position the source does not give. -/
inductive OffsetRange where
  | full
  | upTo (last : Position)
  deriving DecidableEq, Repr

/-- The starting offsets of a range (R146). -/
def OffsetRange.allows (r : OffsetRange) (offset : Position) : Bool :=
  match r with
  | .full => true
  | .upTo last => decide (offset.toNat ≤ last.toNat)

/-- The host's open parameters (R6). -/
structure HostParams where
  /-- `MARKER` (R145): six bytes -/
  marker      : Vector Byte 6
  /-- the one thing that follows about it: it is not "XXXXXX" (R145) -/
  marker_ne   : marker ≠ Vector.replicate 6 0x58
  /-- `OFFSET_RANGE` (R146) -/
  offsetRange : OffsetRange
  /-- `KDF` (R141): passphrase to seed, total -/
  kdf         : List Byte → Seed
  /-- `B64` (R147), the encoder -/
  toText      : List Byte → List Byte
  /-- `B64` (R147), the decoder; none is malformed transport text -/
  ofText      : List Byte → Option (List Byte)
  /-- "must accept exactly what a conforming encoder produces" (R147) -/
  exact       : ∀ text bytes, ofText text = some bytes ↔ text = toText bytes

/-- A starting offset the host may choose: one of its `OFFSET_RANGE` (R146). -/
abbrev HostParams.Offset (h : HostParams) : Type :=
  { p : Position // h.offsetRange.allows p = true }

/-- What the host makes of a response (R52, R171): the payload of an OK, or the kind of an error; none for a frame the
block never sends (spec/93_implementation_defined.md U9). -/
def readResponse (r : Frame) : Option (Except ErrorKind (List Byte)) :=
  match r with
  | [] => none
  | 0x00 :: payload => some (.ok payload)
  | [c] =>
    ([ErrorKind.illegalCommand, .illegalOperand, .noSeed, .noTable, .lengthMismatch, .corrupt].find? fun e => e.code == c).map .error
  | _ => none

/-- The payload of an OK response. -/
def okPayload (r : Frame) : Option (List Byte) :=
  match readResponse r with
  | some (.ok payload) => some payload
  | _ => none

/-- The host ends a call with CLR (R143, R203). -/
def endCall {α : Type} (a : α) (s : State) : Option (α × State) :=
  match ask .clr s with
  | none => none
  | some (_, t) => some (a, t)

/-- `encrypt(key, message)` with the chosen offset, one of the host's `OFFSET_RANGE` (R143, R146): LDSEED, the offset
encrypted at position 0, the message's bytes at the offset, CLR; the envelope (R142) as transport text. None where a draw
never ends: encryption has no other failure, since the message is text (R140). -/
def hostEncrypt (h : HostParams) (key : List Byte) (offset : h.Offset) (message : Text) (s : State) :
    Option (List Byte × State) :=
  match ask (.ldseed (h.kdf key)) s with
  | none => none
  | some (_, s1) =>
    match rawEncrypt 0 (beBytes 16 offset.val.toNat) s1 with
    | none => none
    | some (r2, s2) =>
      match rawEncrypt offset.val message.bytes s2 with
      | none => none
      | some (r3, s3) =>
        match okPayload r2, okPayload r3 with
        | some encryptedOffset, some encryptedMessage =>
          endCall (h.toText (h.marker.toList ++ encryptedOffset ++ encryptedMessage)) s3
        | _, _ => none

/-- What the decrypted payload is (R144 step 7): the text it encodes, or InvalidUTF8. -/
def messageOf (payload : List Byte) : Except ErrorKind Text :=
  match readText payload with
  | some message => .ok message
  | none => .error .invalidUtf8

/-- Steps 5 to 8 of `decrypt` (R144): the offset's bytes as a position, of any 128-bit value (R146), the payload decrypted
there, the text test. -/
def decryptPayload (offsetBytes payload : List Byte) (s : State) : Option (Except ErrorKind Text × State) :=
  match rawDecrypt (BitVec.ofNat 128 (fromBE offsetBytes)) payload s with
  | none => none
  | some (r, t) =>
    match readResponse r with
    | none => none
    | some (.error e) => endCall (.error e) t
    | some (.ok bytes) => endCall (messageOf bytes) t

/-- `decrypt(key, ciphertext)` (R144): the checks in order, the first that fails is the error returned. -/
def hostDecrypt (h : HostParams) (key ciphertext : List Byte) (s : State) : Option (Except ErrorKind Text × State) :=
  match h.ofText ciphertext with
  | none => some (.error .invalidEncoding, s)
  | some envelope =>
    if envelope.length < 6 + 32 then some (.error .tooShort, s)
    else if envelope.take 6 ≠ h.marker.toList then some (.error .noMagic, s)
    else
      match ask (.ldseed (h.kdf key)) s with
      | none => none
      | some (_, s1) =>
        match rawDecrypt 0 ((envelope.drop 6).take 32) s1 with
        | none => none
        | some (r, s2) =>
          match readResponse r with
          | none => none
          | some (.error e) => endCall (.error e) s2
          | some (.ok offsetBytes) => decryptPayload offsetBytes (envelope.drop 38) s2

end Sys2Proof.Machine
end

