-- ==== Sys2Proof/Machine/Instances.lean ====
section
/-!
DEFINITION. Several blocks side by side (spec/60_exceptions.md R186): each has its own state and nothing is shared.
What a host hears from one of them is `converse`.
-/

namespace Sys2Proof.Machine

/-- The responses to frames sent one after the other, error responses among them, each taken before the next frame is
sent, and the state then; none where some response never comes (R76). -/
def converse (l : List Frame) (s : State) : Option (List Frame × State) :=
  match l with
  | [] => some ([], s)
  | f :: rest =>
    match sendFrame f s with
    | none => none
    | some (r, t) =>
      match converse rest t with
      | none => none
      | some (rs, u) => some (r :: rs, u)

/-- Block `k` of several makes a step; none where there is no block `k` or it has no next state. -/
def stepInstance (k : Nat) (blocks : List State) : Option (List State) :=
  match blocks[k]? with
  | none => none
  | some s =>
    match step s with
    | .next t => some (blocks.set k t)
    | .fault _ => none
    | .refused _ => none

end Sys2Proof.Machine
end

