-- ==== Sys2Proof/Safety.lean ====
section
/-!
DEFINITION. The terms claims are stated in: the invariant of the block, what a response may be, when the block is ready
for a frame, live generators (spec/20_memory.md R32 G4), safe runs.
-/

namespace Sys2Proof.Safety

open Sys2Proof.Machine

/-- A response frame the block may send (R52, R171): status 0x00 with any payload, or one of the six error codes of the
block and nothing after it. -/
def legalResponse (r : Frame) : Bool :=
  match r with
  | [] => false
  | c :: payload => c == 0x00 || (payload.isEmpty && [0x01#8, 0x02#8, 0x03#8, 0x04#8, 0x10#8, 0x11#8].contains c)

/-- The invariant of the block: what holds after reset and is kept by every step. -/
structure BlockInv (s : State) : Prop where
  /-- "Whenever TABLE_VALID = 1, TABLE is a bijection on 0..15" (R13, R94) -/
  tableIsPerm  : s.tableValid = true → isPerm s.table = true
  /-- a table that is not valid is sixteen zeros (R13, R14) -/
  tableIsZero  : s.tableValid = false → s.table = Table.zero
  /-- without a seed, SEED and POS have their reset values (R11, R15) -/
  seedIsZero   : s.seedValid = false → s.seed = Seed.zero ∧ s.pos = 0
  /-- a command that hangs drew from a seeded keystream, and has no response (R76) -/
  hungIsSeeded : s.hung = true → s.seedValid = true ∧ s.rspPort = none
  /-- a response is a legal one (R52, R171) -/
  rspIsLegal   : ∀ r, s.rspPort = some r → legalResponse r = true

/-- The next step accepts frame `f`, leaving `rest` on the command port: no reset is asserted, no command is in progress,
and no response waits to be taken (R42, R207). -/
def Accepts (s : State) (f : Frame) (rest : List Frame) : Prop :=
  resetAsserted s.hostMoves = false ∧ s.hung = false ∧ s.rspPort = none ∧ s.cmdPort = f :: rest

/-- An attempt of `NextBounded(n)` at position `p` accepts (R73). -/
def accepted (g : Gen) (seed : Seed) (n : Nat) (p : Position) : Prop :=
  (g seed p).toNat % 2 ^ bitlen (n - 1) < n

/-- G4 of R32: from every position some word is accepted, for every range. -/
def Live (g : Gen) : Prop :=
  ∀ seed p k n, 1 ≤ k → k ≤ 32 → 2 ^ (k - 1) < n → n ≤ 2 ^ k → n < 2 ^ 32 →
    ∃ j < 2 ^ 128, (g seed (p + BitVec.ofNat 128 j)).toNat % 2 ^ k < n

/-- The tables of `n` units in a row, each generated where the one before it left `POS` (R96, R113, R114). -/
def unitTables (g : Gen) (seed : Seed) (n : Nat) (p : Position) : Drawn (List Table) :=
  match n with
  | 0 => .done [] p
  | k + 1 =>
    match generate g seed p with
    | .endless q => .endless q
    | .done t q =>
      match unitTables g seed k q with
      | .endless r => .endless r
      | .done ts r => .done (t :: ts) r

/-- The 2-byte chunks of data of even length (R114). -/
def pairs (d : List Byte) : List (Byte × Byte) :=
  match d with
  | hi :: lo :: rest => (hi, lo) :: pairs rest
  | _ => []

/-- The number of one-bits of a Unit value (R117). -/
def weight (u : UnitValue) : Nat :=
  (List.range 16).countP fun i => u.getLsbD i

/-- What the five registers hold (R15). -/
def registers (s : State) : Seed × Bool × Position × Table × Bool :=
  (s.seed, s.seedValid, s.pos, s.table, s.tableValid)

/-- Every run of `k` steps from `s` ends in a next state: the machine never stops. -/
def SafeRun (s : State) : Prop :=
  ∀ k, ∃ t, Host.Core.run Sys2Proof.core k s = .next t

end Sys2Proof.Safety
end

