-- ==== Sys2Proof/Certificates/Slice0/Obligations.lean ====
section
/-!
DEFINITION. The statements for the provers, from the numbered rules of spec/. States are quantified over every build
(the chip's open generator, the stand-ins, every MAX_DATA). The block has no memory (R33), so a next state written out
as a record update says its whole frame.
-/

open Sys2Proof Sys2Proof.Machine Sys2Proof.Safety

/-! ### Keystream commands -/

/-- R70: LDSEED writes every register, and answers OK with no payload; it has no error of its own. -/
def Obligations.LdseedConstructsTheKeystream : Prop :=
  ∀ (k : Seed) (s : State),
    encode (.ldseed k) = 0x01 :: k.toList ∧
    exec (.ldseed k) s = .next { s with seed := k, seedValid := true, pos := 0, table := Table.zero, tableValid := false,
                                        rspPort := some [0x00] }

/-- R71: SEEK writes POS and nothing else where there is a seed, and is NoSeed with no change where there is none. -/
def Obligations.SeekMovesThePosition : Prop :=
  ∀ (p : Position) (s : State),
    encode (.seek p) = 0x02 :: beBytes 16 p.toNat ∧
    (s.seedValid = true → exec (.seek p) s = .next { s with pos := p, rspPort := some [0x00] }) ∧
    (s.seedValid = false → exec (.seek p) s = .next { s with rspPort := some [0x03] })

/-- R72, R74: DRAW 0 is IllegalOperand whatever the seed, any other DRAW without a seed is NoSeed, neither with a change; else
DRAW answers the first accepted word modulo 2^k, `a` words after POS, and leaves POS just after it, with no bound on `a`. -/
def Obligations.DrawAnswersTheFirstAcceptedWord : Prop :=
  ∀ (n : BitVec 32) (s : State),
    encode (.draw n) = 0x03 :: beBytes 4 n.toNat ∧
    (n = 0 → exec (.draw n) s = .next { s with rspPort := some [0x02] }) ∧
    (n ≠ 0 → s.seedValid = false → exec (.draw n) s = .next { s with rspPort := some [0x03] }) ∧
    ∀ a : Nat, n ≠ 0 → s.seedValid = true →
      accepted s.gen s.seed n.toNat (s.pos + BitVec.ofNat 128 a) →
      (∀ b < a, ¬ accepted s.gen s.seed n.toNat (s.pos + BitVec.ofNat 128 b)) →
      exec (.draw n) s = .next { s with
        pos := s.pos + BitVec.ofNat 128 (a + 1),
        rspPort := some (0x00 :: beBytes 4 ((s.gen s.seed (s.pos + BitVec.ofNat 128 a)).toNat % 2 ^ bitlen (n.toNat - 1))) }

/-- R73: for a power of two the first attempt always accepts, under every generator. -/
def Obligations.DrawOfAPowerOfTwoTakesOneWord : Prop :=
  ∀ (j : Nat) (s : State), j < 32 → s.seedValid = true →
    exec (.draw (BitVec.ofNat 32 (2 ^ j))) s = .next { s with
      pos := s.pos + 1, rspPort := some (0x00 :: beBytes 4 ((s.gen s.seed s.pos).toNat % 2 ^ j)) }

/-- R76, R111, R112 (their hangs), in the model's form (log 6): where no word of the space is accepted, or the table of unit
j of ENCR or DECR never ends, the command stays in progress with no response; POS is where the endless draw began, TABLE and
TABLE_VALID are as unit j - 1 left them. GENTAB's hang is in GentabKeepsAndAnswersTheTable. -/
def Obligations.DrawsThatNeverAcceptHang : Prop :=
  ∀ (s : State), s.seedValid = true →
    (∀ n : BitVec 32, n ≠ 0 → (∀ p, ¬ accepted s.gen s.seed n.toNat p) → exec (.draw n) s = .next { s with hung := true }) ∧
    ∀ (p q r : Position) (j : Nat) (ts : List Table) (d : List Byte),
      unitTables s.gen s.seed j p = .done ts q → generate s.gen s.seed q = .endless r →
      (j < d.length → exec (.encr p d) s = .next { s with
        pos := r, table := ts.getLastD s.table, tableValid := s.tableValid || decide (0 < j), hung := true }) ∧
      ∀ out : List Byte, d.length % 2 = 0 → j < (pairs d).length →
        List.zipWith (fun t c => decodeUnit t c.1 c.2) ts (pairs d) = out.map some →
        exec (.decr p d) s = .next { s with
          pos := r, table := ts.getLastD s.table, tableValid := s.tableValid || decide (0 < j), hung := true }

/-- R75: a draw after SEEK p answers as a draw on any block of the same seed and build whose POS is p, however it came there
(the response of SEEK having been taken). -/
def Obligations.DrawAfterSeekIgnoresThePast : Prop :=
  ∀ (p : Position) (n : BitVec 32) (s a b u v : State),
    u.seed = s.seed → u.build = s.build → s.seedValid = true → u.seedValid = true → u.pos = p → u.rspPort = none →
    exec (.seek p) s = .next a → exec (.draw n) { a with rspPort := none } = .next b → exec (.draw n) u = .next v →
    b.rspPort = v.rspPort ∧ b.pos = v.pos

/-- R76, its first three sentences: a draw ends exactly where some word, going round the whole space, is accepted, and then
with a value in range; for a power of two it always ends; under a live generator (R32 G4) it always ends. -/
def Obligations.DrawsEndExactlyWhereAWordIsAccepted : Prop :=
  ∀ (g : Gen) (seed : Seed) (n : Nat) (p : Position), 1 ≤ n → n < 2 ^ 32 →
    ((∃ v q, nextBounded g seed n p = .done v q) ↔ ∃ a < 2 ^ 128, accepted g seed n (p + BitVec.ofNat 128 a)) ∧
    (∀ v q, nextBounded g seed n p = .done v q → v < n) ∧
    (∀ j, n = 2 ^ j → ∃ v, nextBounded g seed n p = .done v (p + 1)) ∧
    (Live g → ∃ v q, nextBounded g seed n p = .done v q)

/-- R183, R52: under a live generator every command on an idle block ends, and is answered by one legal response. -/
def Obligations.LiveGeneratorAnswersEveryCommand : Prop :=
  ∀ (i : Instr) (s : State), Live s.gen → BlockInv s → s.hung = false → s.rspPort = none →
    ∃ t r, exec i s = .next t ∧ t.hung = false ∧ t.rspPort = some r ∧ legalResponse r = true

/-! ### Permutation table -/

/-- R90: GENTAB is NoSeed without a seed; else it writes the generated table, sets TABLE_VALID, moves POS, and answers
the packed table; where a draw never ends it has no response and has not written TABLE. That it then stays in progress with
POS where the endless draw began is the model's form of the hang (log 6). -/
def Obligations.GentabKeepsAndAnswersTheTable : Prop :=
  ∀ (s : State),
    encode .gentab = [0x04] ∧
    (s.seedValid = false → exec .gentab s = .next { s with rspPort := some [0x03] }) ∧
    (∀ t q, s.seedValid = true → generate s.gen s.seed s.pos = .done t q →
      exec .gentab s = .next { s with pos := q, table := t, tableValid := true, rspPort := some (0x00 :: packTable t) }) ∧
    (∀ q, s.seedValid = true → generate s.gen s.seed s.pos = .endless q →
      exec .gentab s = .next { s with pos := q, hung := true })

/-- R92: Generate is sixteen draws of range sizes 16, 15, ..., 1, each taking the element at the drawn index out of an
ascending pool that closes up in order. -/
def Obligations.GenerateDrawsFromAShrinkingPool : Prop :=
  ∀ (g : Gen) (seed : Seed) (p q : Position) (t : Table),
    generate g seed p = .done t q ↔
      ∃ (pool : Nat → List Nibble) (idx : Nat → Nat) (pos : Nat → Position),
        pool 0 = [0, 1, 2, 3, 4, 5, 6, 7, 8, 9, 10, 11, 12, 13, 14, 15] ∧ pos 0 = p ∧ pos 16 = q ∧
        ∀ j : Fin 16,
          nextBounded g seed (16 - j) (pos j) = .done (idx j) (pos (j + 1)) ∧
          (pool j)[idx j]? = some t[j] ∧
          pool (j + 1) = (pool j).take (idx j) ++ (pool j).drop (idx j + 1)

/-- R93: IsPerm is "every value exactly once", equivalently "no value twice". -/
def Obligations.IsPermIsEveryValueOnce : Prop :=
  ∀ (t : Table), (isPerm t = true ↔ ∀ v : Nibble, t.toList.count v = 1) ∧ (isPerm t = true ↔ t.toList.Nodup)

/-- R94, its first sentence: the result of Generate is always a permutation. -/
def Obligations.GenerateGivesAPermutation : Prop :=
  ∀ (g : Gen) (seed : Seed) (p q : Position) (t : Table), generate g seed p = .done t q → isPerm t = true

/-- R91: LDTAB is IllegalOperand with no change for a table that is no permutation, else it writes TABLE and sets
TABLE_VALID; it needs no seed. -/
def Obligations.LdtabLoadsPermutationsOnly : Prop :=
  ∀ (t : Table) (s : State),
    encode (.ldtab t) = 0x05 :: packTable t ∧
    (isPerm t = true → exec (.ldtab t) s = .next { s with table := t, tableValid := true, rspPort := some [0x00] }) ∧
    (isPerm t = false → exec (.ldtab t) s = .next { s with rspPort := some [0x02] })

/-- R97, R36: a packed table is 8 bytes, byte j being T[2j] * 16 + T[2j+1]. -/
def Obligations.PackedTableLayout : Prop :=
  ∀ (t : Table), (packTable t).length = 8 ∧
    (∀ j : Fin 8, ∀ b, (packTable t)[j.val]? = some b →
      b.toNat = (t[2 * j.val]'(by omega)).toNat * 16 + (t[2 * j.val + 1]'(by omega)).toNat) ∧
    readT8 (packTable t) = some t

/-! ### Cipher functions -/

/-- R100: Double, as a number and by its halves. -/
def Obligations.DoubleIsComplementThenByte : Prop :=
  ∀ (b : Byte), (double b).toNat = (255 - b.toNat) * 256 + b.toNat ∧
    (double b).extractLsb' 0 8 = b ∧ ((double b).extractLsb' 8 8).toNat = 255 - b.toNat

/-- R101, R102: under a permutation, bit i of u is bit T[i] of Perm16(T, u), and this fixes every bit of the result; bit i
of Unperm16(T, w) is bit T[i] of w. -/
def Obligations.PermAndUnpermPlaceTheBits : Prop :=
  ∀ (t : Table) (u w : UnitValue), isPerm t = true →
    (perm16 t u = w ↔ ∀ i : Fin 16, w.getLsbD t[i].toNat = u.getLsbD i.val) ∧
    ∀ i : Fin 16, (unperm16 t w).getLsbD i.val = w.getLsbD t[i].toNat

/-- R103: the two bytes of a 16-bit value, high byte first, and reading them back. -/
def Obligations.TwoByteValuesAreBigEndian : Prop :=
  ∀ (w : UnitValue) (hi lo : Byte),
    be2 w = [w.extractLsb' 8 8, w.extractLsb' 0 8] ∧ be2 w = beBytes 2 w.toNat ∧
    (ofBe2 hi lo).toNat = hi.toNat * 256 + lo.toNat ∧ be2 (ofBe2 hi lo) = [hi, lo]

/-- R104: Check passes exactly where the high byte is the complement of the low byte, which is for the 256 values
Double(b). -/
def Obligations.CheckPassesExactlyForDoubles : Prop :=
  (∀ u : UnitValue, check u = true ↔ (u.extractLsb' 8 8).toNat = 255 - (u.extractLsb' 0 8).toNat) ∧
  (∀ u : UnitValue, check u = true ↔ ∃ b, u = double b) ∧
  (∀ b c, double b = double c → b = c)

/-- R115: Perm16 and Unperm16 are mutually inverse for a permutation, and a decoded encoded byte is the byte. -/
def Obligations.PermAndUnpermAreInverse : Prop :=
  ∀ (t : Table), isPerm t = true →
    (∀ u, unperm16 t (perm16 t u) = u) ∧ (∀ u, perm16 t (unperm16 t u) = u) ∧
    ∀ b, ∃ hi lo, encodeUnit t b = [hi, lo] ∧ decodeUnit t hi lo = some b

/-- R117: an encoded byte has eight one-bits; what has another number of them is Corrupt; the values that decode are the
256 encoded bytes. -/
def Obligations.EncodedUnitsHaveWeightEight : Prop :=
  ∀ (t : Table), isPerm t = true →
    (∀ b, weight (double b) = 8) ∧ (∀ u, weight (perm16 t u) = weight u) ∧
    (∀ hi lo, weight (ofBe2 hi lo) ≠ 8 → decodeUnit t hi lo = none) ∧
    ∀ hi lo b, decodeUnit t hi lo = some b ↔ [hi, lo] = encodeUnit t b

/-- R118: a single flipped bit of an encoded Unit is always caught; flipping bits T[i] and T[i+8] is never caught and
changes bit i of the byte. -/
def Obligations.SingleBitFlipsAreCaught : Prop :=
  ∀ (t : Table) (b : Byte), isPerm t = true →
    (∀ (j : Fin 16) (hi lo : Byte), ofBe2 hi lo = perm16 t (double b) ^^^ 1#16 <<< j.val → decodeUnit t hi lo = none) ∧
    ∀ (i : Fin 8) (hi lo : Byte),
      ofBe2 hi lo = perm16 t (double b) ^^^ 1#16 <<< (t[i.val]'(by omega)).toNat ^^^ 1#16 <<< (t[i.val + 8]'(by omega)).toNat →
      decodeUnit t hi lo = some (b ^^^ 1#8 <<< i.val)

/-! ### Cipher commands -/

/-- R107: PERMW answers Perm16 of the current table and changes no register; without a table it is NoTable. -/
def Obligations.PermwAnswersThePermutedValue : Prop :=
  ∀ (u : UnitValue) (s : State),
    encode (.permw u) = 0x06 :: be2 u ∧
    (s.tableValid = false → exec (.permw u) s = .next { s with rspPort := some [0x04] }) ∧
    (s.tableValid = true → isPerm s.table = true →
      exec (.permw u) s = .next { s with rspPort := some (0x00 :: be2 (perm16 s.table u)) })

/-- R108: UNPERMW answers Unperm16 of the current table and changes no register; without a table it is NoTable. -/
def Obligations.UnpermwAnswersTheUnpermutedValue : Prop :=
  ∀ (w : UnitValue) (s : State),
    encode (.unpermw w) = 0x07 :: be2 w ∧
    (s.tableValid = false → exec (.unpermw w) s = .next { s with rspPort := some [0x04] }) ∧
    (s.tableValid = true → isPerm s.table = true →
      exec (.unpermw w) s = .next { s with rspPort := some (0x00 :: be2 (unperm16 s.table w)) })

/-- R116: on the block, UNPERMW of what PERMW answered gives the value back, for every table LDTAB accepts, each response
being taken before the next command; and Perm16 of a permutation is a bijection of the 16-bit values. -/
def Obligations.UnpermwUndoesPermwOnTheBlock : Prop :=
  ∀ (t : Table), isPerm t = true →
    Function.Bijective (perm16 t) ∧
    ∀ (v : UnitValue) (s a b : State), s.rspPort = none →
      exec (.ldtab t) s = .next a → exec (.permw v) { a with rspPort := none } = .next b →
      ∃ hi lo c, b.rspPort = some [0x00, hi, lo] ∧ exec (.unpermw (ofBe2 hi lo)) { b with rspPort := none } = .next c ∧
        c.rspPort = some (0x00 :: be2 v)

/-- R109, R105: ENC answers the two bytes of EncodeUnit and changes no register; without a table it is NoTable. -/
def Obligations.EncAnswersTheEncodedUnit : Prop :=
  ∀ (b : Byte) (s : State),
    encode (.enc b) = [0x08, b] ∧
    (s.tableValid = false → exec (.enc b) s = .next { s with rspPort := some [0x04] }) ∧
    (s.tableValid = true → isPerm s.table = true →
      exec (.enc b) s = .next { s with rspPort := some (0x00 :: be2 (perm16 s.table (double b))) })

/-- R110, R106: DEC answers the byte where the complement check passes, Corrupt where it fails, NoTable without a table;
it changes no register. -/
def Obligations.DecAnswersTheByteOrCorrupt : Prop :=
  ∀ (c : UnitValue) (s : State),
    encode (.dec c) = 0x09 :: be2 c ∧
    (s.tableValid = false → exec (.dec c) s = .next { s with rspPort := some [0x04] }) ∧
    (s.tableValid = true → isPerm s.table = true → check (unperm16 s.table c) = true →
      exec (.dec c) s = .next { s with rspPort := some [0x00, (unperm16 s.table c).extractLsb' 0 8] }) ∧
    (s.tableValid = true → isPerm s.table = true → check (unperm16 s.table c) = false →
      exec (.dec c) s = .next { s with rspPort := some [0x11] })

/-- spec/93_implementation_defined.md U6, in the model's form (log 12): the four commands on a table that is marked valid
but is no permutation are refused; no step from reset comes there. -/
def Obligations.TableCommandsRefuseNonPermutations : Prop :=
  ∀ (s : State) (u : UnitValue) (b : Byte), s.tableValid = true → isPerm s.table = false →
    exec (.permw u) s = .refused .tableNotPermutation ∧ exec (.unpermw u) s = .refused .tableNotPermutation ∧
    exec (.enc b) s = .refused .tableNotPermutation ∧ exec (.dec u) s = .refused .tableNotPermutation

/-- R111, R113: ENCR generates one table per byte, from the sought position on, and answers the encoded bytes in order;
the last table and the position reached stay. -/
def Obligations.EncrEncodesEachByteUnderItsOwnTable : Prop :=
  ∀ (p : Position) (d : List Byte) (s : State),
    encode (.encr p d) = 0x0A :: (beBytes 16 p.toNat ++ d) ∧
    (s.seedValid = false → exec (.encr p d) s = .next { s with rspPort := some [0x03] }) ∧
    ∀ ts q, s.seedValid = true → unitTables s.gen s.seed d.length p = .done ts q →
      exec (.encr p d) s = .next { s with
        pos := q, table := ts.getLastD s.table, tableValid := s.tableValid || !d.isEmpty,
        rspPort := some (0x00 :: (List.zipWith (fun t b => encodeUnit t b) ts d).flatten) }

/-- R112, R114: DECR of good data decodes each pair under the table of its unit; LengthMismatch comes before NoSeed, and
neither changes a register. -/
def Obligations.DecrDecodesEachPairUnderItsOwnTable : Prop :=
  ∀ (p : Position) (d : List Byte) (s : State),
    encode (.decr p d) = 0x0B :: (beBytes 16 p.toNat ++ d) ∧
    (d.length % 2 = 1 → exec (.decr p d) s = .next { s with rspPort := some [0x10] }) ∧
    (d.length % 2 = 0 → s.seedValid = false → exec (.decr p d) s = .next { s with rspPort := some [0x03] }) ∧
    ∀ ts q out, d.length % 2 = 0 → s.seedValid = true → unitTables s.gen s.seed (d.length / 2) p = .done ts q →
      List.zipWith (fun t c => decodeUnit t c.1 c.2) ts (pairs d) = out.map some →
      exec (.decr p d) s = .next { s with
        pos := q, table := ts.getLastD s.table, tableValid := s.tableValid || !d.isEmpty, rspPort := some (0x00 :: out) }

/-- R112, R114, R178: DECR is Corrupt at the first unit j whose check fails: no decoded byte is returned, and the
registers are as unit j's table generation left them. -/
def Obligations.DecrStopsAtTheFirstCorruptUnit : Prop :=
  ∀ (p : Position) (d : List Byte) (s : State) (j : Nat) (t : Table) (ts : List Table) (q r : Position)
    (out : List Byte) (hi lo : Byte),
    d.length % 2 = 0 → s.seedValid = true →
    unitTables s.gen s.seed j p = .done ts q → generate s.gen s.seed q = .done t r →
    List.zipWith (fun t c => decodeUnit t c.1 c.2) ts (pairs d) = out.map some →
    (pairs d)[j]? = some (hi, lo) → decodeUnit t hi lo = none →
    exec (.decr p d) s = .next { s with pos := r, table := t, tableValid := true, rspPort := some [0x11] }

/-- R119: two bytes out per byte in, bytes 2i and 2i+1 being data byte i encoded under the table of unit i; half as many out
of a DECR that succeeds. -/
def Obligations.RawDataKeepLengthAndOrder : Prop :=
  ∀ (p : Position) (d out : List Byte) (s t : State), s.seedValid = true → s.hung = false → t.hung = false →
    t.rspPort = some (0x00 :: out) →
    (exec (.encr p d) s = .next t →
      out.length = 2 * d.length ∧ ∃ ts : List Table, ts.length = d.length ∧
        unitTables s.gen s.seed d.length p = .done ts t.pos ∧
        ∀ (i : Nat) (b : Byte) (T : Table), d[i]? = some b → ts[i]? = some T → (out.drop (2 * i)).take 2 = encodeUnit T b) ∧
    (exec (.decr p d) s = .next t → 2 * out.length = d.length)

/-- R120: the response of ENCR and of DECR is a function of SEED and the frame (and the build), not of POS, TABLE or
anything earlier. -/
def Obligations.RawResponsesIgnoreThePast : Prop :=
  ∀ (p : Position) (d : List Byte) (s₁ s₂ t₁ t₂ : State),
    s₁.seed = s₂.seed → s₁.seedValid = s₂.seedValid → s₁.build = s₂.build → s₁.rspPort = s₂.rspPort →
    (exec (.encr p d) s₁ = .next t₁ → exec (.encr p d) s₂ = .next t₂ → t₁.rspPort = t₂.rspPort) ∧
    (exec (.decr p d) s₁ = .next t₁ → exec (.decr p d) s₂ = .next t₂ → t₁.rspPort = t₂.rspPort)

/-- R121: raw round trip. What ENCR answered, DECR at the same position under the same seed decodes, and both leave the
same POS and TABLE. The decoding block may have any TABLE, the one ENCR left included; only where there are no data, and so
neither command writes TABLE, must both blocks have the same one before. -/
def Obligations.DecrUndoesEncr : Prop :=
  ∀ (p : Position) (d out : List Byte) (s t u : State),
    s.seedValid = true → exec (.encr p d) s = .next t → t.hung = false → t.rspPort = some (0x00 :: out) →
    u.seed = s.seed → u.build = s.build → u.seedValid = true →
    (d = [] → u.table = s.table ∧ u.tableValid = s.tableValid) →
    exec (.decr p out) u = .next { u with pos := t.pos, table := t.table, tableValid := t.tableValid, rspPort := some (0x00 :: d) }

/-- R63: ENCR is equal to SEEK and then GENTAB and ENC per byte, issued by hand: same answer, same state. -/
def Obligations.EncrEqualsItsExpansion : Prop :=
  ∀ (p : Position) (d : List Byte) (s : State), withinMaxData s.build.maxData d.length = true →
    byHand (encrExpansion p d) s = ask (.encr p d) s

/-- R63: DECR of data of even length is equal to SEEK and then GENTAB and DEC per pair, stopping at the first Corrupt. -/
def Obligations.DecrEqualsItsExpansion : Prop :=
  ∀ (p : Position) (d : List Byte) (s : State), withinMaxData s.build.maxData d.length = true → d.length % 2 = 0 →
    byHand (decrExpansion p d) s = ask (.decr p d) s

/-! ### System commands and the flags -/

/-- R130, R17: RDSTAT answers TABLE_VALID * 2 + SEED_VALID in one byte and changes no register. -/
def Obligations.RdstatAnswersTheFlags : Prop :=
  ∀ (s : State), encode .rdstat = [0x0C] ∧
    exec .rdstat s = .next { s with rspPort := some [0x00, BitVec.ofNat 8 (s.tableValid.toNat * 2 + s.seedValid.toNat)] }

/-- R131: CLR puts every register in its reset value and answers OK. -/
def Obligations.ClrWipesEveryRegister : Prop :=
  ∀ (s : State), encode .clr = [0x0D] ∧
    ∃ t, exec .clr s = .next t ∧ registers t = registers State.reset ∧
      t = { s with seed := Vector.replicate 32 0, seedValid := false, pos := 0, table := Vector.replicate 16 0,
                   tableValid := false, rspPort := some [0x00] }

/-- R18: what sets and clears the two flags, over all commands. -/
def Obligations.FlagsChangeOnlyByTheirCommands : Prop :=
  ∀ (i : Instr) (s t : State), exec i s = .next t →
    (s.seedValid = false → t.seedValid = true → ∃ k, i = .ldseed k) ∧
    (s.seedValid = true → t.seedValid = false → i = .clr) ∧
    (s.tableValid = false → t.tableValid = true →
      i = .gentab ∨ (∃ k, i = .ldtab k ∧ isPerm k = true) ∨ (∃ p d, i = .encr p d ∧ d ≠ []) ∨ ∃ p d, i = .decr p d ∧ 2 ≤ d.length) ∧
    (s.tableValid = true → t.tableValid = false → i = .clr ∨ ∃ k, i = .ldseed k)

/-- R15, the write columns of its table: what each command leaves unchanged, in every next state, error responses and the
hang included; and no command touches the waiting frames, the build or the host's moves. -/
def Obligations.CommandsWriteOnlyTheirRegisters : Prop :=
  ∀ (i : Instr) (s t : State), exec i s = .next t →
    t.cmdPort = s.cmdPort ∧ t.build = s.build ∧ t.hostMoves = s.hostMoves ∧
    match i with
    | .ldseed _ | .clr => t.hung = s.hung
    | .seek _ => t.hung = s.hung ∧ t.seed = s.seed ∧ t.seedValid = s.seedValid ∧ t.table = s.table ∧ t.tableValid = s.tableValid
    | .draw _ => t.seed = s.seed ∧ t.seedValid = s.seedValid ∧ t.table = s.table ∧ t.tableValid = s.tableValid
    | .gentab | .encr _ _ | .decr _ _ => t.seed = s.seed ∧ t.seedValid = s.seedValid
    | .ldtab _ => t.hung = s.hung ∧ t.seed = s.seed ∧ t.seedValid = s.seedValid ∧ t.pos = s.pos
    | .permw _ | .unpermw _ | .enc _ | .dec _ | .rdstat => t.hung = s.hung ∧ registers t = registers s

/-- R31, R23: only DRAW, GENTAB, ENCR and DECR reach the keystream, so every other command answers and writes the same
whatever generator is fitted. -/
def Obligations.OtherCommandsNeverReadTheKeystream : Prop :=
  ∀ (i : Instr) (s t : State) (g : GenId),
    (∀ n, i ≠ .draw n) → i ≠ .gentab → (∀ p d, i ≠ .encr p d) → (∀ p d, i ≠ .decr p d) → exec i s = .next t →
    exec i { s with build := { s.build with gen := g } } = .next { t with build := { s.build with gen := g } }

/-! ### Encoding -/

/-- Decoding undoes encoding, for every command with its operands at every value. -/
def Obligations.DecodeUndoesEncode : Prop :=
  ∀ (max : Option Nat) (i : Instr), i.wf max = true → decode max (encode i) = .ok i

/-- R60: a frame that is a command is exactly that command's frame, and within MAX_DATA. -/
def Obligations.EncodeUndoesDecode : Prop :=
  ∀ (max : Option Nat) (f : Frame) (i : Instr), decode max f = .ok i → encode i = f ∧ i.wf max = true

/-- R57: a frame is illegal exactly where it is empty, its byte 0 is not one of 0x01 to 0x0D, its length is not one of its
opcode's format, or it is ENCR or DECR with more data than a numeric MAX_DATA. -/
def Obligations.IllegalFramesAreExactlyThoseOfTheRule : Prop :=
  ∀ (max : Option Nat) (f : Frame),
    (∃ e, decode max f = .error e) ↔
      f = [] ∨
      (∃ op ops, f = op :: ops ∧
        (op.toNat < 0x01 ∨ 0x0D < op.toNat ∨
         (∃ row, opcodeRow op = some row ∧ row.format.legalLength f.length = false) ∨
         ((op = 0x0A ∨ op = 0x0B) ∧ ∃ m, max = some m ∧ 17 ≤ f.length ∧ m < f.length - 17)))

/-- R55: operand assembly is big-endian; a seed and data are byte sequences in frame order. -/
def Obligations.OperandsAreAssembledBigEndian : Prop :=
  (∀ (max : Option Nat) (a b c d : Byte),
    decode max [0x03, a, b, c, d] =
      .ok (.draw (BitVec.ofNat 32 (a.toNat * 2 ^ 24 + b.toNat * 2 ^ 16 + c.toNat * 2 ^ 8 + d.toNat)))) ∧
  (∀ (max : Option Nat) (hi lo : Byte), ∃ h : UnitValue, h.toNat = hi.toNat * 256 + lo.toNat ∧
    decode max [0x06, hi, lo] = .ok (.permw h) ∧ decode max [0x07, hi, lo] = .ok (.unpermw h) ∧
    decode max [0x09, hi, lo] = .ok (.dec h)) ∧
  (∀ (max : Option Nat) (F d : List Byte), F.length = 16 → withinMaxData max d.length = true →
    ∃ p : Position,
      p.toNat = ((List.finRange 16).map fun i : Fin 16 => (F.getD i.val 0).toNat * 2 ^ (8 * (15 - i.val))).sum ∧
      decode max (0x02 :: F) = .ok (.seek p) ∧
      decode max (0x0A :: (F ++ d)) = .ok (.encr p d) ∧ decode max (0x0B :: (F ++ d)) = .ok (.decr p d)) ∧
  ∀ (max : Option Nat) (s : Seed), decode max (0x01 :: s.toList) = .ok (.ldseed s)

/-- A few frames written out from spec/30_encoding.md R53, R54 decode to the commands they stand for. -/
def Obligations.SpecFramesDecode : Prop :=
  decode none [0x03, 0x00, 0x00, 0x00, 0x0F] = .ok (.draw 15) ∧
  decode none [0x04] = .ok .gentab ∧
  decode none [0x06, 0xB7, 0x48] = .ok (.permw 0xB748) ∧
  decode none [0x08, 0x48] = .ok (.enc 0x48) ∧
  decode none [0x0C] = .ok .rdstat ∧
  decode none [0x05, 0x01, 0x23, 0x45, 0x67, 0x89, 0xAB, 0xCD, 0xEF] =
    .ok (.ldtab #v[0, 1, 2, 3, 4, 5, 6, 7, 8, 9, 10, 11, 12, 13, 14, 15])

/-! ### The machine -/

/-- R21, R200: the reset values. -/
def Obligations.ResetValues : Prop :=
  State.reset.seed = Vector.replicate 32 0 ∧ State.reset.seedValid = false ∧ State.reset.pos = 0 ∧
  State.reset.table = Vector.replicate 16 0 ∧ State.reset.tableValid = false

/-- The invariant holds after reset. -/
def Obligations.ResetMeetsTheInvariant : Prop :=
  BlockInv State.reset

/-- R13, R94, R171: every step keeps the invariant, from every state that meets it. -/
def Obligations.StepKeepsTheInvariant : Prop :=
  ∀ (s t : State), BlockInv s → step s = .next t → BlockInv t

/-- R170: no failure stops the block. From every state that meets the invariant every run goes on for ever. -/
def Obligations.TheBlockNeverStops : Prop :=
  ∀ (s : State), BlockInv s → SafeRun s

/-- A step runs the decoded command: where the block accepts a frame that is command i, step is exec of i, with the frame
off the command port and nothing else changed around it. R42 gives when a frame is accepted; that one step is the whole
command is the model's choice (log 23, DEDUCED), and so is that it comes before the host's next move (log 5, DESIGN
CHOICE). -/
def Obligations.StepRunsTheAcceptedCommand : Prop :=
  ∀ (s : State) (f : Frame) (rest : List Frame) (i : Instr),
    Accepts s f rest → decode s.build.maxData f = .ok i → step s = exec i { s with cmdPort := rest }

/-- R173: an accepted frame that is illegal is answered IllegalCommand, and no register changes. -/
def Obligations.IllegalFrameIsAnsweredIllegalCommand : Prop :=
  ∀ (s : State) (f : Frame) (rest : List Frame) (e : Illegal),
    Accepts s f rest → decode s.build.maxData f = .error e →
    step s = .next { s with cmdPort := rest, rspPort := some [0x01] }

/-- R52: a command on an idle block is answered by exactly one legal response, or hangs and is answered by none. -/
def Obligations.OneResponsePerCommand : Prop :=
  ∀ (i : Instr) (s t : State), s.rspPort = none → s.hung = false → exec i s = .next t →
    (t.hung = true ∧ t.rspPort = none) ∨ (t.hung = false ∧ ∃ r, t.rspPort = some r ∧ legalResponse r = true)

/-- R179: an error response is one status byte, and every register is unchanged, for every error but Corrupt in DECR. -/
def Obligations.ErrorsChangeNoRegister : Prop :=
  ∀ (i : Instr) (s t : State) (c : Byte) (rest : List Byte), s.rspPort = none →
    exec i s = .next t → t.rspPort = some (c :: rest) → c ≠ 0x00 →
    rest = [] ∧ ((∃ p d, i = .decr p d ∧ c = 0x11) ∨ t = { s with rspPort := some [c] })

/-- R42, R207 as log 4 reads them (DEDUCED), one move of the host per step (log 5, DESIGN CHOICE): while a response is not
taken the block accepts nothing and loses nothing. The response goes only where the host takes it, a frame joins the command
port only where the host sends it, and nothing else changes. -/
def Obligations.UntakenResponseHoldsTheBlock : Prop :=
  ∀ (s : State) (r f : Frame) (rest : List HostMove), s.rspPort = some r → s.hung = false →
    (s.hostMoves = [] → step s = .next s) ∧
    (s.hostMoves = .take :: rest → step s = .next { s with rspPort := none, hostMoves := rest }) ∧
    (s.hostMoves = .send f :: rest → step s = .next { s with cmdPort := s.cmdPort ++ [f], hostMoves := rest })

/-- R76, R42, in the model's form of the hang (log 6) and of the host's moves (log 5): a hung block sends no response and
accepts no frame, whatever the host does short of reset; every waiting frame still waits, and POS keeps advancing. -/
def Obligations.HungBlockWaitsForReset : Prop :=
  ∀ (s : State) (f : Frame) (rest : List HostMove), s.hung = true →
    (s.hostMoves = [] → step s = .next { s with pos := s.pos + 1 }) ∧
    (s.hostMoves = .take :: rest → step s = .next { s with pos := s.pos + 1, rspPort := none, hostMoves := rest }) ∧
    (s.hostMoves = .send f :: rest →
      step s = .next { s with pos := s.pos + 1, cmdPort := s.cmdPort ++ [f], hostMoves := rest })

/-- R200, R201: reset asserted in any state, a hung one too, leaves the reset registers, an idle block and no response;
the build and the host's further moves stay (R204; the ports: log 8). -/
def Obligations.ResetEndsWhateverTheBlockDoes : Prop :=
  ∀ (s : State) (rest : List HostMove), s.hostMoves = .reset :: rest →
    step s = .next { State.reset with build := s.build, hostMoves := rest }

/-- R204: no command, no reset and no other step changes the build, and so no run does. -/
def Obligations.NoStepChangesTheBuild : Prop :=
  (∀ (s t : State), step s = .next t → t.build = s.build) ∧
  ∀ (k : Nat) (s t : State), Host.Core.run Sys2Proof.core k s = .next t → t.build = s.build

/-- R24, R185: with no frame to accept, no host move and no command in progress, nothing changes. A frame that waits behind
a response not taken is not one to accept: R207, R42 as log 4 reads them (DEDUCED). -/
def Obligations.IdleBlockKeepsItsState : Prop :=
  ∀ (s : State), s.hostMoves = [] → s.hung = false → (s.cmdPort = [] ∨ s.rspPort ≠ none) → step s = .next s

/-- R186, R22 b: two blocks of one build answer alike. Given the same frame, with the same registers, they send the same
response and end in the same registers; given the same frames from an LDSEED on, they send the same responses, whatever each
did before. And a step of one block of several changes no other, and is the step it would make alone (log 17). -/
def Obligations.InstancesShareNothing : Prop :=
  (∀ (s u a : State) (f : Frame) (rest more : List Frame), s.build = u.build → registers s = registers u →
    Accepts s f rest → Accepts u f more → step s = .next a →
    ∃ b, step u = .next b ∧ b.rspPort = a.rspPort ∧ b.hung = a.hung ∧ registers b = registers a) ∧
  (∀ (k : Seed) (l : List Frame) (s u : State), s.build = u.build → s.hung = false → u.hung = false →
    (converse (encode (.ldseed k) :: l) s).map (fun x => (x.1, registers x.2)) =
      (converse (encode (.ldseed k) :: l) u).map (fun x => (x.1, registers x.2))) ∧
  ∀ (blocks after : List State) (k : Nat), stepInstance k blocks = some after →
    (∀ j, j ≠ k → after[j]? = blocks[j]?) ∧
    ∃ s t, blocks[k]? = some s ∧ step s = .next t ∧ after[k]? = some t

/-! ### The host's calls -/

/-- R143, R144 and the source's round trip (spec/95_test_vectors.md S1): where every draw of the encryption ends, the
decryption of its ciphertext under the same passphrase is the message, for every text, every offset of the host's range and
every MAX_DATA. The host's functions are the model's: text as bytes and an exact B64 (log 18, DESIGN CHOICE), the unit
sequence over MAX_DATA and CLR at the end (log 19, DEDUCED), what a text is (log 24, PRESUMED). -/
def Obligations.DecryptUndoesEncrypt : Prop :=
  ∀ (h : HostParams) (key ciphertext : List Byte) (message : Text) (offset : h.Offset) (s t u : State),
    s.hung = false → u.hung = false → u.build = s.build →
    hostEncrypt h key offset message s = some (ciphertext, t) →
    ∃ v, hostDecrypt h key ciphertext u = some (.ok message, v)
end

