-- ==== Sys2Proof/Laws/State.lean ====
section
/-!
SUPPORT. One lemma per field per named update of Block, so that no later proof unfolds a record update; and the block, the
build and the host's moves of a State with another block.
-/

namespace Sys2Proof.Machine

@[simp] theorem setPos_seed (s : Block) (p : Position) : (s.setPos p).seed = s.seed := rfl
@[simp] theorem setPos_seedValid (s : Block) (p : Position) : (s.setPos p).seedValid = s.seedValid := rfl
@[simp] theorem setPos_pos (s : Block) (p : Position) : (s.setPos p).pos = p := rfl
@[simp] theorem setPos_table (s : Block) (p : Position) : (s.setPos p).table = s.table := rfl
@[simp] theorem setPos_tableValid (s : Block) (p : Position) : (s.setPos p).tableValid = s.tableValid := rfl
@[simp] theorem setPos_cmdPort (s : Block) (p : Position) : (s.setPos p).cmdPort = s.cmdPort := rfl
@[simp] theorem setPos_rspPort (s : Block) (p : Position) : (s.setPos p).rspPort = s.rspPort := rfl
@[simp] theorem setPos_hung (s : Block) (p : Position) : (s.setPos p).hung = s.hung := rfl

@[simp] theorem loadTable_seed (s : Block) (t : Table) : (s.loadTable t).seed = s.seed := rfl
@[simp] theorem loadTable_seedValid (s : Block) (t : Table) : (s.loadTable t).seedValid = s.seedValid := rfl
@[simp] theorem loadTable_pos (s : Block) (t : Table) : (s.loadTable t).pos = s.pos := rfl
@[simp] theorem loadTable_table (s : Block) (t : Table) : (s.loadTable t).table = t := rfl
@[simp] theorem loadTable_tableValid (s : Block) (t : Table) : (s.loadTable t).tableValid = true := rfl
@[simp] theorem loadTable_cmdPort (s : Block) (t : Table) : (s.loadTable t).cmdPort = s.cmdPort := rfl
@[simp] theorem loadTable_rspPort (s : Block) (t : Table) : (s.loadTable t).rspPort = s.rspPort := rfl
@[simp] theorem loadTable_hung (s : Block) (t : Table) : (s.loadTable t).hung = s.hung := rfl

@[simp] theorem loadSeed_seed (s : Block) (k : Seed) : (s.loadSeed k).seed = k := rfl
@[simp] theorem loadSeed_seedValid (s : Block) (k : Seed) : (s.loadSeed k).seedValid = true := rfl
@[simp] theorem loadSeed_pos (s : Block) (k : Seed) : (s.loadSeed k).pos = 0 := rfl
@[simp] theorem loadSeed_table (s : Block) (k : Seed) : (s.loadSeed k).table = Table.zero := rfl
@[simp] theorem loadSeed_tableValid (s : Block) (k : Seed) : (s.loadSeed k).tableValid = false := rfl
@[simp] theorem loadSeed_cmdPort (s : Block) (k : Seed) : (s.loadSeed k).cmdPort = s.cmdPort := rfl
@[simp] theorem loadSeed_rspPort (s : Block) (k : Seed) : (s.loadSeed k).rspPort = s.rspPort := rfl
@[simp] theorem loadSeed_hung (s : Block) (k : Seed) : (s.loadSeed k).hung = s.hung := rfl

@[simp] theorem clearRegisters_seed (s : Block) : (s.clearRegisters).seed = Seed.zero := rfl
@[simp] theorem clearRegisters_seedValid (s : Block) : (s.clearRegisters).seedValid = false := rfl
@[simp] theorem clearRegisters_pos (s : Block) : (s.clearRegisters).pos = 0 := rfl
@[simp] theorem clearRegisters_table (s : Block) : (s.clearRegisters).table = Table.zero := rfl
@[simp] theorem clearRegisters_tableValid (s : Block) : (s.clearRegisters).tableValid = false := rfl
@[simp] theorem clearRegisters_cmdPort (s : Block) : (s.clearRegisters).cmdPort = s.cmdPort := rfl
@[simp] theorem clearRegisters_rspPort (s : Block) : (s.clearRegisters).rspPort = s.rspPort := rfl
@[simp] theorem clearRegisters_hung (s : Block) : (s.clearRegisters).hung = s.hung := rfl

@[simp] theorem spin_seed (s : Block) : (spin s).seed = s.seed := rfl
@[simp] theorem spin_seedValid (s : Block) : (spin s).seedValid = s.seedValid := rfl
@[simp] theorem spin_pos (s : Block) : (spin s).pos = s.pos + 1 := rfl
@[simp] theorem spin_table (s : Block) : (spin s).table = s.table := rfl
@[simp] theorem spin_tableValid (s : Block) : (spin s).tableValid = s.tableValid := rfl
@[simp] theorem spin_cmdPort (s : Block) : (spin s).cmdPort = s.cmdPort := rfl
@[simp] theorem spin_rspPort (s : Block) : (spin s).rspPort = s.rspPort := rfl
@[simp] theorem spin_hung (s : Block) : (spin s).hung = s.hung := rfl

@[simp] theorem reset_seed : Block.reset.seed = Seed.zero := rfl
@[simp] theorem reset_seedValid : Block.reset.seedValid = false := rfl
@[simp] theorem reset_pos : Block.reset.pos = 0 := rfl
@[simp] theorem reset_table : Block.reset.table = Table.zero := rfl
@[simp] theorem reset_tableValid : Block.reset.tableValid = false := rfl
@[simp] theorem reset_cmdPort : Block.reset.cmdPort = [] := rfl
@[simp] theorem reset_rspPort : Block.reset.rspPort = none := rfl
@[simp] theorem reset_hung : Block.reset.hung = false := rfl

/-- The generator of a state does not depend on its block (R204). -/
@[simp] theorem gen_withBlock (s : State) (t : Block) : ({ s with toBlock := t } : State).gen = s.gen := rfl

/-- `State.gen` is the generator of the build (R204). -/
theorem gen_eq (s : State) : s.gen = genOf s.build.gen := rfl

/-- A later seek makes an earlier one unobservable. -/
@[simp] theorem setPos_setPos (s : Block) (p q : Position) : (s.setPos p).setPos q = s.setPos q := rfl

/-- A later table makes an earlier one unobservable. -/
@[simp] theorem loadTable_loadTable (s : Block) (t u : Table) : (s.loadTable t).loadTable u = s.loadTable u := rfl

/-- POS and TABLE are disjoint (R15). -/
theorem loadTable_setPos (s : Block) (t : Table) (p : Position) : (s.loadTable t).setPos p = (s.setPos p).loadTable t := rfl

end Sys2Proof.Machine
end

