-- ==== Sys2Proof/Laws/Ops.lean ====
section
/-!
SUPPORT. What the shared operations can do, said once: the bit length, the bounded draw, the end of a command.
-/

namespace Sys2Proof.Machine

@[simp] theorem bind_done {α β : Type} (a : α) (s : Block) (k : α → Block → Ran β) : (Ran.done a s).bind k = k a s := rfl
@[simp] theorem bind_failed {α β : Type} (e : ErrorKind) (s : Block) (k : α → Block → Ran β) :
    (Ran.failed e s : Ran α).bind k = .failed e s := rfl
@[simp] theorem bind_hung {α β : Type} (s : Block) (k : α → Block → Ran β) : (Ran.hung s : Ran α).bind k = .hung s := rfl

@[simp] theorem finish_done (payload : List Byte) (s : Block) : finish (.done payload s) = respondOk payload s := rfl
@[simp] theorem finish_failed (e : ErrorKind) (s : Block) : finish (.failed e s) = raise e s := rfl
@[simp] theorem finish_hung (s : Block) : finish (.hung s) = hang s := rfl

@[simp] theorem mapNext_next {α β : Type} (f : α → β) (a : α) : mapNext f (.next a) = .next (f a) := rfl
@[simp] theorem mapNext_fault {α β : Type} (f : α → β) (r : Fault) : mapNext f (.fault r) = .fault r := rfl
@[simp] theorem mapNext_refused {α β : Type} (f : α → β) (r : Refusal) : mapNext f (.refused r) = .refused r := rfl

/-- Where a mapped outcome is a next state, it is the image of one. -/
theorem mapNext_eq_next {α β : Type} {f : α → β} {o : Host.Outcome α Fault Refusal} {c : β} (h : mapNext f o = .next c) :
    ∃ a, o = .next a ∧ c = f a := by
  cases o with
  | next a => cases h; exact ⟨a, rfl, rfl⟩
  | fault r => cases h
  | refused r => cases h

/-- What a command on the block of a state does: its outcome on the block, the build and the host's moves kept. -/
theorem onBlock_eq (s : State) (f : Build → Block → Host.Outcome Block Fault Refusal) :
    onBlock s f = mapNext (fun t => { s with toBlock := t }) (f s.build s.toBlock) := rfl

theorem respondOk_eq (payload : List Byte) (s : Block) :
    respondOk payload s = .next { s with rspPort := some (0x00 :: payload) } := rfl
theorem raise_eq (e : ErrorKind) (s : Block) : raise e s = .next { s with rspPort := some [e.code] } := rfl
theorem hang_eq (s : Block) : hang s = .next { s with hung := true } := rfl

/-- A number is below two to its bit length (R7). -/
theorem lt_two_pow_bitlen (x : Nat) : x < 2 ^ bitlen x := by
  unfold bitlen
  split
  · omega
  · exact Nat.lt_log2_self

/-- The bit length is the least such exponent (R7). -/
theorem bitlen_le_of_lt {x k : Nat} (h : x < 2 ^ k) : bitlen x ≤ k := by
  unfold bitlen
  split
  · omega
  · rename_i hx
    have := (Nat.log2_lt hx).2 h
    omega

/-- The position `a` words after `p + 1` is the one `a + 1` words after `p`. -/
theorem add_one_add_ofNat (p : Position) (a : Nat) : p + 1 + BitVec.ofNat 128 a = p + BitVec.ofNat 128 (a + 1) := by
  rw [show a + 1 = 1 + a from Nat.add_comm a 1, BitVec.ofNat_add, ← BitVec.add_assoc]
  rfl

/-- `attempts` answers a value exactly at the first position of the loop whose word is accepted (R73, R74). -/
theorem attempts_eq_done_iff (g : Gen) (seed : Seed) (n k : Nat) (start : Position) (fuel : Nat) (p q : Position) (v : Nat) :
    attempts g seed n k start fuel p = .done v q ↔
      ∃ a < fuel, (∀ j < a, ¬ (g seed (p + BitVec.ofNat 128 j)).toNat % 2 ^ k < n) ∧
        (g seed (p + BitVec.ofNat 128 a)).toNat % 2 ^ k = v ∧ v < n ∧ q = p + BitVec.ofNat 128 (a + 1) := by
  induction fuel generalizing p with
  | zero => simp [attempts]
  | succ f ih =>
    simp only [attempts, ksRead]
    by_cases h : (g seed p).toNat % 2 ^ k < n
    · simp only [h, if_true, Drawn.done.injEq]
      constructor
      · rintro ⟨rfl, rfl⟩
        exact ⟨0, by omega, by simp, by simp, h, by simp⟩
      · rintro ⟨a, _, hrej, hv, _, rfl⟩
        have ha : a = 0 := by
          by_contra h0
          exact hrej 0 (by omega) (by simpa using h)
        subst ha
        exact ⟨by simpa using hv, by simp⟩
    · simp only [h, if_false, ih]
      constructor
      · rintro ⟨a, ha, hrej, hv, hlt, rfl⟩
        refine ⟨a + 1, by omega, ?_, ?_, hlt, add_one_add_ofNat p (a + 1)⟩
        · rintro (_ | j) hj
          · simpa using h
          · rw [← add_one_add_ofNat]; exact hrej j (by omega)
        · rw [← add_one_add_ofNat]; exact hv
      · rintro ⟨a, ha, hrej, hv, hlt, rfl⟩
        rcases a with _ | a
        · exact absurd (show (g seed p).toNat % 2 ^ k < n by simpa [← hv] using hlt) h
        · refine ⟨a, by omega, ?_, ?_, hlt, (add_one_add_ofNat p (a + 1)).symm⟩
          · intro j hj
            rw [add_one_add_ofNat]; exact hrej (j + 1) (by omega)
          · rw [add_one_add_ofNat]; exact hv

/-- `attempts` is endless exactly where every position of the loop is rejected. -/
theorem attempts_eq_endless_iff (g : Gen) (seed : Seed) (n k : Nat) (start : Position) (fuel : Nat) (p q : Position) :
    attempts g seed n k start fuel p = .endless q ↔
      q = start ∧ ∀ j < fuel, ¬ (g seed (p + BitVec.ofNat 128 j)).toNat % 2 ^ k < n := by
  induction fuel generalizing p with
  | zero => simp [attempts, eq_comm]
  | succ f ih =>
    simp only [attempts, ksRead]
    by_cases h : (g seed p).toNat % 2 ^ k < n
    · simp only [h, if_true]
      constructor
      · intro hh; cases hh
      · rintro ⟨_, hall⟩
        exact absurd (by simpa using h) (hall 0 (by omega))
    · simp only [h, if_false, ih]
      refine and_congr_right fun _ => ⟨fun hall => ?_, fun hall j hj => ?_⟩
      · rintro (_ | j) hj
        · simpa using h
        · rw [← add_one_add_ofNat]; exact hall j (by omega)
      · rw [add_one_add_ofNat]; exact hall (j + 1) (by omega)

/-- What a draw answers: the first accepted word and the position after it (R74). -/
theorem nextBounded_eq_done_iff (g : Gen) (seed : Seed) (n : Nat) (p q : Position) (v : Nat) :
    nextBounded g seed n p = .done v q ↔
      ∃ a < 2 ^ 128, (∀ j < a, ¬ Safety.accepted g seed n (p + BitVec.ofNat 128 j)) ∧
        (g seed (p + BitVec.ofNat 128 a)).toNat % 2 ^ bitlen (n - 1) = v ∧ v < n ∧ q = p + BitVec.ofNat 128 (a + 1) :=
  attempts_eq_done_iff g seed n _ p _ p q v

/-- When a draw never ends: no word of the whole keystream space is accepted (R76). -/
theorem nextBounded_eq_endless_iff (g : Gen) (seed : Seed) (n : Nat) (p q : Position) :
    nextBounded g seed n p = .endless q ↔
      q = p ∧ ∀ j < 2 ^ 128, ¬ Safety.accepted g seed n (p + BitVec.ofNat 128 j) :=
  attempts_eq_endless_iff g seed n _ p _ p q

/-- A drawn value is below its range size. -/
theorem nextBounded_lt {g : Gen} {seed : Seed} {n v : Nat} {p q : Position} (h : nextBounded g seed n p = .done v q) : v < n := by
  obtain ⟨_, _, _, _, hlt, _⟩ := (nextBounded_eq_done_iff g seed n p q v).1 h
  exact hlt

/-- A draw inside a command either moves POS and answers, or hangs with POS where it began. -/
theorem drawInto_cases (b : Build) (n : Nat) (s : Block) :
    (∃ v p, nextBounded (genOf b.gen) s.seed n s.pos = .done v p ∧ drawInto b n s = .done v (s.setPos p)) ∨
    (nextBounded (genOf b.gen) s.seed n s.pos = .endless s.pos ∧ drawInto b n s = .hung s) := by
  unfold drawInto
  cases h : nextBounded (genOf b.gen) s.seed n s.pos with
  | done v p => exact .inl ⟨v, p, rfl, rfl⟩
  | endless q =>
    obtain ⟨rfl, _⟩ := (nextBounded_eq_endless_iff _ _ _ _ _).1 h
    exact .inr ⟨rfl, rfl⟩

end Sys2Proof.Machine
end

