-- ==== Sys2Proof/Laws/PermTable.lean ====
section
/-!
SUPPORT. What Generate and a new table can do.
-/

namespace Sys2Proof.Machine

/-- A round of Generate that ends: its draw, and the rounds after it on the pool without the drawn element (R92). -/
theorem generateRounds_succ_done_iff (g : Gen) (seed : Seed) (k : Nat) (pool l : List Nibble) (p r : Position) :
    generateRounds g seed (k + 1) pool p = .done l r ↔
      ∃ idx q rest, nextBounded g seed (k + 1) p = .done idx q ∧
        generateRounds g seed k (pool.eraseIdx idx) q = .done rest r ∧ l = pool.getD idx 0 :: rest := by
  simp only [generateRounds]
  cases h : nextBounded g seed (k + 1) p with
  | endless q => simp
  | done idx q =>
    dsimp only
    cases h2 : generateRounds g seed k (pool.eraseIdx idx) q with
    | endless _ =>
      simp only [reduceCtorEq, Drawn.done.injEq, false_iff]
      rintro ⟨_, _, _, ⟨rfl, rfl⟩, h3, _⟩
      rw [h2] at h3
      cases h3
    | done rest r' =>
      simp only [Drawn.done.injEq]
      constructor
      · rintro ⟨rfl, rfl⟩; exact ⟨idx, q, rest, ⟨rfl, rfl⟩, h2, rfl⟩
      · rintro ⟨_, _, rest', ⟨rfl, rfl⟩, h3, rfl⟩
        rw [h2] at h3
        cases h3
        exact ⟨rfl, rfl⟩

/-- The rounds take every element of the pool once: their output is a rearrangement of it. -/
theorem generateRounds_perm (g : Gen) (seed : Seed) (m : Nat) (pool l : List Nibble) (p q : Position)
    (hp : pool.length = m) (h : generateRounds g seed m pool p = .done l q) : l.Perm pool := by
  induction m generalizing pool l p with
  | zero =>
    simp only [generateRounds, Drawn.done.injEq] at h
    rw [List.length_eq_zero_iff.1 hp, ← h.1]
  | succ k ih =>
    obtain ⟨idx, q', rest, hdraw, hrest, rfl⟩ := (generateRounds_succ_done_iff g seed k pool l p q).1 h
    have hidx : idx < pool.length := hp ▸ nextBounded_lt hdraw
    have hr : rest.Perm (pool.eraseIdx idx) := ih _ _ _ (by rw [List.length_eraseIdx_of_lt hidx]; omega) hrest
    rw [List.getD_eq_getElem _ _ hidx]
    exact (hr.cons _).trans (List.getElem_cons_eraseIdx_perm hidx)

/-- Generate answers the list of its rounds as a table. -/
theorem generate_eq_done_iff (g : Gen) (seed : Seed) (p q : Position) (t : Table) :
    generate g seed p = .done t q ↔ ∃ l, generateRounds g seed 16 fullPool p = .done l q ∧ t = tableOfList l := by
  unfold generate
  cases h : generateRounds g seed 16 fullPool p <;> simp [eq_comm, and_comm]

/-- A round whose draw never ends makes the rounds endless. -/
theorem generateRounds_endless_first {g : Gen} {seed : Seed} {k : Nat} {pool : List Nibble} {p q : Position}
    (h : nextBounded g seed (k + 1) p = .endless q) : generateRounds g seed (k + 1) pool p = .endless q := by
  simp only [generateRounds, h]

/-- A round whose draw ends, before rounds that never end. -/
theorem generateRounds_endless_later {g : Gen} {seed : Seed} {k idx : Nat} {pool : List Nibble} {p q r : Position}
    (h : nextBounded g seed (k + 1) p = .done idx q) (h' : generateRounds g seed k (pool.eraseIdx idx) q = .endless r) :
    generateRounds g seed (k + 1) pool p = .endless r := by
  simp only [generateRounds, h, h']

/-- Generate never ends exactly where its rounds do not. -/
theorem generate_endless {g : Gen} {seed : Seed} {p q : Position} (h : generateRounds g seed 16 fullPool p = .endless q) :
    generate g seed p = .endless q := by
  simp only [generate, h]

/-- A table made of sixteen listed entries has them in order. -/
theorem toList_tableOfList (l : List Nibble) (h : l.length = 16) : (tableOfList l).toList = l := by
  apply List.ext_getElem
  · simp [h]
  · intro i h1 h2
    simp [tableOfList, List.getElem?_eq_getElem h2]

/-- A new table: Generate, then TABLE and TABLE_VALID; under a hang POS is where the endless draw began. -/
theorem newTable_cases (b : Build) (s : Block) :
    (∃ t p, generate (genOf b.gen) s.seed s.pos = .done t p ∧ newTable b s = .done t ((s.setPos p).loadTable t)) ∨
    (∃ p, generate (genOf b.gen) s.seed s.pos = .endless p ∧ newTable b s = .hung (s.setPos p)) := by
  unfold newTable
  cases h : generate (genOf b.gen) s.seed s.pos with
  | done t p => exact .inl ⟨t, p, rfl, rfl⟩
  | endless p => exact .inr ⟨p, rfl, rfl⟩

end Sys2Proof.Machine
end

