-- ==== Sys2Proof/Laws/Cipher.lean ====
section
/-!
SUPPORT. What the cipher's operations can do: bit placement, the unit loops, a command on the current table.
-/

namespace Sys2Proof.Machine

/-- The bits of a placed value: position j is set where some pair sets it. -/
theorem getLsbD_placeBits (l : List (Bool × Nibble)) (j : Nat) :
    (placeBits l).getLsbD j = l.any fun x => x.1 && decide (x.2.toNat = j) := by
  induction l with
  | nil => simp [placeBits]
  | cons x rest ih =>
    have hstep : placeBits (x :: rest) = (if x.1 then 1#16 <<< x.2.toNat else 0#16) ||| placeBits rest := rfl
    have hx : x.2.toNat < 16 := x.2.isLt
    rw [hstep, BitVec.getLsbD_or, ih, List.any_cons]
    cases hb : x.1
    · simp
    · congr 1
      simp only [if_true, BitVec.getLsbD_shiftLeft, Bool.true_and]
      by_cases hj : x.2.toNat = j
      · subst hj; simp [hx]
      · simp only [hj, decide_false]
        by_cases hlt : j < x.2.toNat
        · simp [hlt]
        · simp [BitVec.getLsbD_one, show j - x.2.toNat ≠ 0 by omega]

/-- What is outside the keystream position and the table: untouched by drawing and by units. -/
structure SameElsewhere (s t : Block) : Prop where
  seed      : t.seed = s.seed
  seedValid : t.seedValid = s.seedValid
  cmdPort   : t.cmdPort = s.cmdPort
  rspPort   : t.rspPort = s.rspPort
  hung      : t.hung = s.hung

theorem SameElsewhere.refl (s : Block) : SameElsewhere s s := ⟨rfl, rfl, rfl, rfl, rfl⟩

theorem SameElsewhere.trans {s t u : Block} (h : SameElsewhere s t) (k : SameElsewhere t u) : SameElsewhere s u :=
  ⟨k.1.trans h.1, k.2.trans h.2, k.3.trans h.3, k.4.trans h.4, k.5.trans h.5⟩

theorem sameElsewhere_setPos (s : Block) (p : Position) : SameElsewhere s (s.setPos p) := ⟨rfl, rfl, rfl, rfl, rfl⟩

theorem sameElsewhere_loadTable (s : Block) (t : Table) : SameElsewhere s (s.loadTable t) :=
  ⟨rfl, rfl, rfl, rfl, rfl⟩

/-- The state a part of a command leaves, whatever it comes to. -/
def Ran.state {α : Type} (r : Ran α) : Block :=
  match r with
  | .done _ s => s
  | .failed _ s => s
  | .hung s => s

@[simp] theorem state_done {α : Type} (a : α) (s : Block) : (Ran.done a s).state = s := rfl
@[simp] theorem state_failed {α : Type} (e : ErrorKind) (s : Block) : (Ran.failed e s : Ran α).state = s := rfl
@[simp] theorem state_hung {α : Type} (s : Block) : (Ran.hung s : Ran α).state = s := rfl

/-- Where every continuation keeps what is elsewhere, so does the whole. -/
theorem sameElsewhere_bind {α β : Type} (s : Block) (r : Ran α) (k : α → Block → Ran β) (h : SameElsewhere s r.state)
    (hk : ∀ a t, SameElsewhere s t → SameElsewhere s (k a t).state) : SameElsewhere s (r.bind k).state := by
  cases r with
  | done a t => exact hk a t h
  | failed e t => exact h
  | hung t => exact h

theorem sameElsewhere_newTable (b : Build) (s : Block) : SameElsewhere s (newTable b s).state := by
  obtain ⟨t, p, _, h⟩ | ⟨p, _, h⟩ := newTable_cases b s <;> rw [h]
  · exact (sameElsewhere_setPos s p).trans (sameElsewhere_loadTable _ t)
  · exact sameElsewhere_setPos s p

theorem sameElsewhere_encryptUnits (b : Build) (d : List Byte) (s : Block) : SameElsewhere s (encryptUnits b d s).state := by
  induction d generalizing s with
  | nil => exact .refl s
  | cons _ rest ih =>
    exact sameElsewhere_bind s _ _ (sameElsewhere_newTable b s) fun t s1 h1 =>
      sameElsewhere_bind s _ _ (h1.trans (ih s1)) fun _ s2 h2 => h2

theorem sameElsewhere_decryptUnits (b : Build) (d : List Byte) (s : Block) : SameElsewhere s (decryptUnits b d s).state := by
  induction d, s using decryptUnits.induct with
  | case1 s => exact .refl s
  | case2 s b => exact .refl s
  | case3 s hi lo rest ih =>
    simp only [decryptUnits]
    refine sameElsewhere_bind s _ _ (sameElsewhere_newTable b s) fun t s1 h1 => ?_
    cases h : decodeUnit t hi lo with
    | none => exact h1
    | some b => exact sameElsewhere_bind s _ _ (h1.trans (ih s1)) fun _ s2 h2 => h2

/-- A command on the current table: NoTable, its effect on a permutation, or the refusal. -/
theorem withTable_cases (s : Block) (k : Table → Host.Outcome Block Fault Refusal) :
    (s.tableValid = false ∧ withTable s k = raise .noTable s) ∨
    (s.tableValid = true ∧ isPerm s.table = true ∧ withTable s k = k s.table) ∨
    (s.tableValid = true ∧ isPerm s.table = false ∧ withTable s k = .refused .tableNotPermutation) := by
  unfold withTable
  cases hv : s.tableValid <;> cases hp : isPerm s.table <;> simp

end Sys2Proof.Machine
end

