-- ==== Sys2Proof/Laws/Block.lean ====
section
/-!
SUPPORT. What a command and a step can do: every command ends in a next state that keeps the ports' queues, the build and
the host's moves, or in the refusal; every step is a reset, a command, or a move of the host.
-/

namespace Sys2Proof.Machine

/-- Mapping twice is mapping once. -/
theorem mapNext_mapNext {α β γ : Type} (f : α → β) (g : β → γ) (o : Host.Outcome α Fault Refusal) :
    mapNext g (mapNext f o) = mapNext (fun a => g (f a)) o := by
  cases o <;> rfl

/-- Every command is a function of the build and the block (R204): it answers the block it makes and nothing else. -/
theorem exec_isOnBlock (i : Instr) : ∃ f, ∀ s : State, exec i s = onBlock s f := by
  cases i <;>
    simp only [exec, execLdseed, execSeek, execDraw, execGentab, execLdtab, execPermw, execUnpermw, execEnc, execDec, execEncr,
      execDecr, execRdstat, execClr] <;>
    exact ⟨_, fun _ => rfl⟩

/-- A command on a state is the command on its block, the build and the host's moves kept. -/
theorem exec_eq_onBlock (i : Instr) (s : State) : exec i s = onBlock s fun b t => execBlock b i t := by
  obtain ⟨f, hf⟩ := exec_isOnBlock i
  unfold execBlock
  rw [hf s, onBlock_eq, onBlock_eq, hf, onBlock_eq, mapNext_mapNext, mapNext_mapNext]

/-- What no command touches: the waiting frames, the build, the host's further moves. -/
structure SameAround (s t : State) : Prop where
  cmdPort   : t.cmdPort = s.cmdPort
  build     : t.build = s.build
  hostMoves : t.hostMoves = s.hostMoves

/-- How a part of a command ends: always in a next state, with the registers it left (R52, R76, R179). -/
theorem finish_next (r : Ran (List Byte)) :
    ∃ t, finish r = .next t ∧ t.seed = r.state.seed ∧ t.seedValid = r.state.seedValid ∧ t.pos = r.state.pos ∧
      t.table = r.state.table ∧ t.tableValid = r.state.tableValid ∧ t.cmdPort = r.state.cmdPort := by
  cases r <;> exact ⟨_, rfl, rfl, rfl, rfl, rfl, rfl, rfl⟩

/-- The outcome `o` of a command on the block `s`: a next state that keeps the waiting frames, or the refusal of U6. -/
def BlockEndsWell (s : Block) (o : Host.Outcome Block Fault Refusal) : Prop :=
  (∃ t, o = .next t ∧ t.cmdPort = s.cmdPort) ∨ (s.tableValid = true ∧ isPerm s.table = false ∧ o = .refused .tableNotPermutation)

theorem endsWell_raise (e : ErrorKind) (s : Block) : BlockEndsWell s (raise e s) := .inl ⟨_, rfl, rfl⟩

theorem endsWell_respondOk (payload : List Byte) {s t : Block} (h : t.cmdPort = s.cmdPort) :
    BlockEndsWell s (respondOk payload t) := .inl ⟨_, rfl, h⟩

theorem endsWell_finish {s : Block} {r : Ran (List Byte)} (h : SameElsewhere s r.state) : BlockEndsWell s (finish r) := by
  obtain ⟨t, ht, _, _, _, _, _, hc⟩ := finish_next r
  exact .inl ⟨t, ht, hc.trans h.cmdPort⟩

theorem endsWell_withTable {s : Block} {k : Table → Host.Outcome Block Fault Refusal} (h : BlockEndsWell s (k s.table)) :
    BlockEndsWell s (withTable s k) := by
  obtain ⟨_, h1⟩ | ⟨_, _, h1⟩ | ⟨hv, hp, h1⟩ := withTable_cases s k <;> rw [h1]
  · exact endsWell_raise _ s
  · exact h
  · exact .inr ⟨hv, hp, rfl⟩

theorem sameElsewhere_drawInto (b : Build) (n : Nat) (s : Block) : SameElsewhere s (drawInto b n s).state := by
  obtain ⟨v, p, _, h⟩ | ⟨_, h⟩ := drawInto_cases b n s <;> rw [h]
  · exact sameElsewhere_setPos s p
  · exact .refl s

/-- The outcome `o` of a command on `s`: a next state that keeps what is around, or the refusal of U6. -/
def EndsWell (s : State) (o : Host.Outcome State Fault Refusal) : Prop :=
  (∃ t, o = .next t ∧ SameAround s t) ∨ (s.tableValid = true ∧ isPerm s.table = false ∧ o = .refused .tableNotPermutation)

theorem endsWell_onBlock {s : State} {f : Build → Block → Host.Outcome Block Fault Refusal}
    (h : BlockEndsWell s.toBlock (f s.build s.toBlock)) : EndsWell s (onBlock s f) := by
  obtain ⟨t, ht, hc⟩ | ⟨hv, hp, ho⟩ := h
  · exact .inl ⟨{ s with toBlock := t }, by rw [onBlock_eq, ht, mapNext_next], ⟨hc, rfl, rfl⟩⟩
  · exact .inr ⟨hv, hp, by rw [onBlock_eq, ho, mapNext_refused]⟩

/-- What every command does (R52, R179, U6): it ends in a next state that keeps what is around, or it is a command on a
table that is no permutation, refused. -/
theorem exec_endsWell (i : Instr) (s : State) : EndsWell s (exec i s) := by
  cases i <;>
    simp only [exec, execLdseed, execSeek, execDraw, execGentab, execLdtab, execPermw, execUnpermw, execEnc, execDec, execEncr,
      execDecr, execRdstat, execClr] <;>
    apply endsWell_onBlock
  case ldseed k => exact endsWell_respondOk _ rfl
  case seek p =>
    split
    · exact endsWell_raise _ _
    · exact endsWell_respondOk _ rfl
  case draw n =>
    split
    · exact endsWell_raise _ _
    · split
      · exact endsWell_raise _ _
      · exact endsWell_finish (sameElsewhere_bind _ _ _ (sameElsewhere_drawInto _ _ _) fun _ _ h => h)
  case gentab =>
    split
    · exact endsWell_raise _ _
    · exact endsWell_finish (sameElsewhere_bind _ _ _ (sameElsewhere_newTable _ _) fun _ _ h => h)
  case ldtab t =>
    split
    · exact endsWell_raise _ _
    · exact endsWell_respondOk _ rfl
  case dec c =>
    apply endsWell_withTable
    split
    · exact endsWell_raise _ _
    · exact endsWell_respondOk _ rfl
  case encr p d =>
    split
    · exact endsWell_raise _ _
    · exact endsWell_finish ((sameElsewhere_setPos _ p).trans (sameElsewhere_encryptUnits _ d _))
  case decr p d =>
    simp only [decryptRaw]
    split
    · exact endsWell_raise _ _
    · split
      · exact endsWell_raise _ _
      · exact endsWell_finish ((sameElsewhere_setPos _ p).trans (sameElsewhere_decryptUnits _ d _))
  case rdstat => exact endsWell_respondOk _ rfl
  case clr => exact endsWell_respondOk _ rfl
  all_goals exact endsWell_withTable (endsWell_respondOk _ rfl)

/-- A frame accepted by the block of a state is answered IllegalCommand, or is one command, run. -/
theorem runFrame_cases (f : Frame) (s : State) :
    ((∃ e, decode s.build.maxData f = .error e) ∧
      onBlock s (fun b t => runFrame b f t) = .next { s with rspPort := some [ErrorKind.illegalCommand.code] }) ∨
    (∃ i, decode s.build.maxData f = .ok i ∧ onBlock s (fun b t => runFrame b f t) = exec i s) := by
  rw [onBlock_eq]
  unfold runFrame
  cases h : decode s.build.maxData f with
  | error e => exact .inl ⟨⟨e, rfl⟩, rfl⟩
  | ok i => exact .inr ⟨i, rfl, (exec_eq_onBlock i s).symm⟩

/-- `s` after the host's next move, with `t` as its block before that move. -/
def afterMove (s : State) (t : Block) : State :=
  { toBlock := (hostActs s.hostMoves t).1, build := s.build, hostMoves := (hostActs s.hostMoves t).2 }

/-- What a step is (R41, R42, R201): the reset asserted now, the command accepted now, or a move of the host while an
endless draw, if there is one, goes on. -/
theorem step_cases (s : State) :
    (resetAsserted s.hostMoves = true ∧ step s = .next (afterMove s s.toBlock)) ∨
    (∃ f rest, Safety.Accepts s f rest ∧ step s = onBlock { s with cmdPort := rest } fun b t => runFrame b f t) ∨
    (resetAsserted s.hostMoves = false ∧ (∀ f rest, ¬ Safety.Accepts s f rest) ∧
      step s = .next (afterMove s (if s.hung then spin s.toBlock else s.toBlock))) := by
  unfold step stepState blockStep
  cases hr : resetAsserted s.hostMoves with
  | true => exact .inl ⟨rfl, rfl⟩
  | false =>
    right
    unfold acceptable
    cases hh : s.hung with
    | true => exact .inr ⟨rfl, fun f rest h => by simp_all [Safety.Accepts], rfl⟩
    | false =>
      cases hp : s.rspPort with
      | some r => exact .inr ⟨rfl, fun f rest h => by simp_all [Safety.Accepts], rfl⟩
      | none =>
        cases hc : s.cmdPort with
        | nil => exact .inr ⟨rfl, fun f rest h => by simp_all [Safety.Accepts], rfl⟩
        | cons f rest =>
          refine .inl ⟨f, rest, ⟨hr, hh, hp, hc⟩, ?_⟩
          simp only [mapNext_mapNext, Bool.false_eq_true, if_false, onBlock_eq]

end Sys2Proof.Machine
end

