-- ==== Sys2Proof/Laws/Exec.lean ====
section
/-!
SUPPORT. The equations of the meanings that have conditions, one per case, so that no proof splits them again.
-/

namespace Sys2Proof.Machine

/-- Two commands that do the same to a block do the same to a state. -/
theorem onBlock_congr {s : State} {f g : Build → Block → Host.Outcome Block Fault Refusal}
    (h : f s.build s.toBlock = g s.build s.toBlock) : onBlock s f = onBlock s g := congrArg (mapNext _) h

theorem exec_ldseed (k : Seed) (s : State) : exec (.ldseed k) s = onBlock s fun _ t => respondOk [] (t.loadSeed k) := rfl

theorem exec_seek (p : Position) (s : State) : exec (.seek p) s = onBlock s fun _ t =>
    if t.seedValid = false then raise .noSeed t else respondOk [] (t.setPos p) := rfl

theorem exec_draw (n : BitVec 32) (s : State) : exec (.draw n) s = onBlock s fun b t =>
    if n = 0 then raise .illegalOperand t
    else if t.seedValid = false then raise .noSeed t
    else finish ((drawInto b n.toNat t).bind fun v u => .done (beBytes 4 v) u) := rfl

theorem exec_gentab (s : State) : exec .gentab s = onBlock s fun b t =>
    if t.seedValid = false then raise .noSeed t
    else finish ((newTable b t).bind fun table u => .done (packTable table) u) := rfl

theorem exec_ldtab (t : Table) (s : State) : exec (.ldtab t) s = onBlock s fun _ u =>
    if isPerm t = false then raise .illegalOperand u else respondOk [] (u.loadTable t) := rfl

theorem exec_encr (p : Position) (d : List Byte) (s : State) : exec (.encr p d) s = onBlock s fun b a =>
    if a.seedValid = false then raise .noSeed a else finish (encryptRaw b p d a) := rfl

theorem exec_decr (p : Position) (d : List Byte) (s : State) : exec (.decr p d) s = onBlock s fun b a =>
    if d.length % 2 = 1 then raise .lengthMismatch a
    else if a.seedValid = false then raise .noSeed a
    else finish (decryptRaw b p d a) := rfl

theorem exec_rdstat (s : State) : exec .rdstat s = onBlock s fun _ t => respondOk [t.status] t := rfl

theorem exec_clr (s : State) : exec .clr s = onBlock s fun _ t => respondOk [] t.clearRegisters := rfl

theorem exec_seek_seeded {s : State} (p : Position) (h : s.seedValid = true) :
    exec (.seek p) s = onBlock s fun _ t => respondOk [] (t.setPos p) :=
  (exec_seek p s).trans (onBlock_congr (if_neg (by simp [h])))

theorem exec_seek_noSeed {s : State} (p : Position) (h : s.seedValid = false) :
    exec (.seek p) s = onBlock s fun _ t => raise .noSeed t :=
  (exec_seek p s).trans (onBlock_congr (if_pos h))

theorem exec_draw_zero {n : BitVec 32} (s : State) (hn : n = 0) :
    exec (.draw n) s = onBlock s fun _ t => raise .illegalOperand t :=
  (exec_draw n s).trans (onBlock_congr (if_pos hn))

theorem exec_draw_noSeed {s : State} {n : BitVec 32} (hn : n ≠ 0) (h : s.seedValid = false) :
    exec (.draw n) s = onBlock s fun _ t => raise .noSeed t :=
  (exec_draw n s).trans (onBlock_congr ((if_neg hn).trans (if_pos h)))

theorem exec_draw_seeded {s : State} {n : BitVec 32} (hn : n ≠ 0) (h : s.seedValid = true) :
    exec (.draw n) s = onBlock s fun b t => finish ((drawInto b n.toNat t).bind fun v u => .done (beBytes 4 v) u) :=
  (exec_draw n s).trans (onBlock_congr ((if_neg hn).trans (if_neg (by simp [h]))))

theorem exec_gentab_noSeed {s : State} (h : s.seedValid = false) :
    exec .gentab s = onBlock s fun _ t => raise .noSeed t :=
  (exec_gentab s).trans (onBlock_congr (if_pos h))

theorem exec_gentab_seeded {s : State} (h : s.seedValid = true) :
    exec .gentab s = onBlock s fun b t => finish ((newTable b t).bind fun table u => .done (packTable table) u) :=
  (exec_gentab s).trans (onBlock_congr (if_neg (by simp [h])))

theorem exec_ldtab_perm {t : Table} (s : State) (h : isPerm t = true) :
    exec (.ldtab t) s = onBlock s fun _ u => respondOk [] (u.loadTable t) :=
  (exec_ldtab t s).trans (onBlock_congr (if_neg (by simp [h])))

theorem exec_ldtab_notPerm {t : Table} (s : State) (h : isPerm t = false) :
    exec (.ldtab t) s = onBlock s fun _ u => raise .illegalOperand u :=
  (exec_ldtab t s).trans (onBlock_congr (if_pos h))

theorem exec_encr_noSeed {s : State} (p : Position) (d : List Byte) (h : s.seedValid = false) :
    exec (.encr p d) s = onBlock s fun _ t => raise .noSeed t :=
  (exec_encr p d s).trans (onBlock_congr (if_pos h))

theorem exec_encr_seeded {s : State} (p : Position) (d : List Byte) (h : s.seedValid = true) :
    exec (.encr p d) s = onBlock s fun b t => finish (encryptUnits b d (t.setPos p)) :=
  (exec_encr p d s).trans (onBlock_congr (if_neg (by simp [h])))

theorem exec_decr_odd (s : State) (p : Position) {d : List Byte} (h : d.length % 2 = 1) :
    exec (.decr p d) s = onBlock s fun _ t => raise .lengthMismatch t :=
  (exec_decr p d s).trans (onBlock_congr (if_pos h))

theorem exec_decr_noSeed {s : State} (p : Position) {d : List Byte} (hd : d.length % 2 = 0) (h : s.seedValid = false) :
    exec (.decr p d) s = onBlock s fun _ t => raise .noSeed t :=
  (exec_decr p d s).trans (onBlock_congr ((if_neg (by omega)).trans (if_pos h)))

theorem exec_decr_seeded {s : State} (p : Position) {d : List Byte} (hd : d.length % 2 = 0) (h : s.seedValid = true) :
    exec (.decr p d) s = onBlock s fun b t => finish (decryptUnits b d (t.setPos p)) :=
  (exec_decr p d s).trans (onBlock_congr ((if_neg (by omega)).trans ((if_neg (by simp [h])).trans (congrArg finish (if_neg (by omega))))))

theorem withTable_noTable {s : Block} (k : Table → Host.Outcome Block Fault Refusal) (h : s.tableValid = false) :
    withTable s k = raise .noTable s := if_pos h

theorem withTable_perm {s : Block} (k : Table → Host.Outcome Block Fault Refusal) (h : s.tableValid = true)
    (hp : isPerm s.table = true) : withTable s k = k s.table := (if_neg (by simp [h])).trans (if_pos hp)

theorem withTable_notPerm {s : Block} (k : Table → Host.Outcome Block Fault Refusal) (h : s.tableValid = true)
    (hp : isPerm s.table = false) : withTable s k = .refused .tableNotPermutation :=
  (if_neg (by simp [h])).trans (if_neg (by simp [hp]))

theorem exec_permw (u : UnitValue) (s : State) :
    exec (.permw u) s = onBlock s fun _ a => withTable a fun t => respondOk (be2 (perm16 t u)) a := rfl

theorem exec_unpermw (w : UnitValue) (s : State) :
    exec (.unpermw w) s = onBlock s fun _ a => withTable a fun t => respondOk (be2 (unperm16 t w)) a := rfl

theorem exec_enc (b : Byte) (s : State) :
    exec (.enc b) s = onBlock s fun _ a => withTable a fun t => respondOk (encodeUnit t b) a := rfl

theorem exec_dec (c : UnitValue) (s : State) :
    exec (.dec c) s = onBlock s fun _ a => withTable a fun t =>
      match decodeUnit t (c.extractLsb' 8 8) (c.extractLsb' 0 8) with
      | none => raise .corrupt a
      | some b => respondOk [b] a := rfl

end Sys2Proof.Machine
end

