-- ==== Sys2Proof/Laws/PerInstr.lean ====
section
/-!
SUPPORT. The shape of each command's frame (spec/30_encoding.md R53, R54): byte 0 is an opcode of the map, and the length
is a legal one of its format.
-/

namespace Sys2Proof.Laws.FrameShape

/-- The opcode of a command (R54). -/
def opcodeOf (i : Instr) : Byte :=
  match i with
  | .ldseed _ => 0x01
  | .seek _ => 0x02
  | .draw _ => 0x03
  | .gentab => 0x04
  | .ldtab _ => 0x05
  | .permw _ => 0x06
  | .unpermw _ => 0x07
  | .enc _ => 0x08
  | .dec _ => 0x09
  | .encr _ _ => 0x0A
  | .decr _ _ => 0x0B
  | .rdstat => 0x0C
  | .clr => 0x0D

/-- The frame of `i` begins with its opcode, which the map has, and its length is legal for the opcode's format. -/
def Statement (i : Instr) : Prop :=
  ∃ row ops, opcodeRow (opcodeOf i) = some row ∧ encode i = opcodeOf i :: ops ∧ row.format.legalLength (encode i).length = true

/-- An n-byte big-endian number has n bytes (R7). -/
@[simp] theorem length_beBytes (n v : Nat) : (beBytes n v).length = n := by
  induction n with
  | zero => rfl
  | succ k ih => simp [beBytes, ih]

theorem ldseed (s : Seed) : Statement (.ldseed s) := by
  refine ⟨_, _, rfl, rfl, ?_⟩
  simp [encode, Format.legalLength, Format.minLength]

theorem seek (p : Position) : Statement (.seek p) := ⟨_, _, rfl, rfl, rfl⟩

theorem draw (n : BitVec 32) : Statement (.draw n) := ⟨_, _, rfl, rfl, rfl⟩

theorem gentab : Statement .gentab := ⟨_, _, rfl, rfl, rfl⟩

/-- Packing makes one byte of every two entries (R36). -/
theorem length_packNibbles (t : List Nibble) : (packNibbles t).length = t.length / 2 := by
  induction t using packNibbles.induct with
  | case1 hi lo rest ih => simp only [packNibbles, List.length_cons, ih]; omega
  | case2 l h =>
    match l, h with
    | [], _ => rfl
    | [_], _ => simp [packNibbles]
    | a :: b :: r, h => exact absurd rfl (h a b r)

theorem ldtab (t : Table) : Statement (.ldtab t) := by
  refine ⟨_, _, rfl, rfl, ?_⟩
  simp [encode, packTable, length_packNibbles, Format.legalLength, Format.minLength]

theorem permw (u : UnitValue) : Statement (.permw u) := ⟨_, _, rfl, rfl, rfl⟩

theorem unpermw (w : UnitValue) : Statement (.unpermw w) := ⟨_, _, rfl, rfl, rfl⟩

theorem enc (b : Byte) : Statement (.enc b) := ⟨_, _, rfl, rfl, rfl⟩

theorem dec (c : UnitValue) : Statement (.dec c) := ⟨_, _, rfl, rfl, rfl⟩

theorem encr (p : Position) (d : List Byte) : Statement (.encr p d) := by
  refine ⟨_, _, rfl, rfl, ?_⟩
  simp [encode, Format.legalLength]

theorem decr (p : Position) (d : List Byte) : Statement (.decr p d) := by
  refine ⟨_, _, rfl, rfl, ?_⟩
  simp [encode, Format.legalLength]

theorem rdstat : Statement .rdstat := ⟨_, _, rfl, rfl, rfl⟩

theorem clr : Statement .clr := ⟨_, _, rfl, rfl, rfl⟩

end Sys2Proof.Laws.FrameShape
end

