-- ==== Sys2Proof/Laws/Text.lean ====
section
/-!
SUPPORT. What the host's text test does: it accepts exactly the bytes of a text.
-/

namespace Sys2Proof.Machine

/-- Reading the bytes of a text gives it back. -/
@[simp] theorem readText_bytes (t : Text) : readText t.bytes = some t := dif_pos t.isText

/-- Bytes read as a text exactly where they are its bytes. -/
theorem readText_eq_some_iff (bytes : List Byte) (t : Text) : readText bytes = some t ↔ t.bytes = bytes := by
  constructor
  · intro h
    unfold readText at h
    split at h
    · cases h; rfl
    · cases h
  · rintro rfl
    exact readText_bytes t

/-- Bytes that are no text are InvalidUTF8 (R144 step 7). -/
theorem messageOf_invalid {bytes : List Byte} (h : validUtf8 bytes = false) : messageOf bytes = .error .invalidUtf8 := by
  unfold messageOf readText
  rw [dif_neg (by simp [h])]

/-- A text's bytes are that message (R144 step 7). -/
@[simp] theorem messageOf_bytes (t : Text) : messageOf t.bytes = .ok t := by
  simp [messageOf]

/-- Every offset is one of the full range (R146 a). -/
@[simp] theorem allows_full (p : Position) : OffsetRange.full.allows p = true := rfl

/-- The small range holds the positions from 0 to its last one (R146 b). -/
theorem allows_upTo_iff (last p : Position) : (OffsetRange.upTo last).allows p = true ↔ p.toNat ≤ last.toNat := by
  simp [OffsetRange.allows]

end Sys2Proof.Machine
end

