-- ==== Sys2Proof/Machine/Assembly.lean ====
section
/-!
DEFINITION. The textual form of commands (spec/30_encoding.md R61): one line of text to one command. It is notation for
the spec's test vectors; no definition of the block uses this file. Lines are lists of characters.
-/

namespace Sys2Proof.Machine

/-- The value of a decimal digit. -/
def decDigit (c : Char) : Option Nat :=
  if 48 ≤ c.toNat ∧ c.toNat ≤ 57 then some (c.toNat - 48) else none

/-- The value of a hexadecimal digit, capital or small. -/
def hexDigit (c : Char) : Option Nat :=
  if 65 ≤ c.toNat ∧ c.toNat ≤ 70 then some (c.toNat - 55)
  else if 97 ≤ c.toNat ∧ c.toNat ≤ 102 then some (c.toNat - 87)
  else decDigit c

/-- The digits of a number after the value read so far. -/
def moreDigits (base : Nat) (digit : Char → Option Nat) (l : List Char) (v : Nat) : Option Nat :=
  match l with
  | [] => some v
  | c :: rest =>
    match digit c with
    | none => none
    | some d => moreDigits base digit rest (v * base + d)

/-- A number (R61): decimal, or hexadecimal after 0x. -/
def readNumber (l : List Char) : Option Nat :=
  match l with
  | [] => none
  | ['0', 'x'] => none
  | '0' :: 'x' :: rest => moreDigits 16 hexDigit rest 0
  | c :: rest => moreDigits 10 decDigit (c :: rest) 0

/-- A number that fits in `w` bits. -/
def readField (w : Nat) (l : List Char) : Option (BitVec w) :=
  match readNumber l with
  | none => none
  | some v => if v < 2 ^ w then some (BitVec.ofNat w v) else none

/-- The inside of a byte sequence (R61): two hexadecimal digits per byte, optional spaces. -/
def readHexPairs (l : List Char) : Option (List Byte) :=
  match l with
  | [] => some []
  | ' ' :: rest => readHexPairs rest
  | [_] => none
  | a :: b :: rest =>
    match hexDigit a, hexDigit b, readHexPairs rest with
    | some x, some y, some bytes => some (BitVec.ofNat 8 (x * 16 + y) :: bytes)
    | _, _, _ => none

/-- A byte sequence (R61): an x, then the digits between double quotes. -/
def readBytes (l : List Char) : Option (List Byte) :=
  match l with
  | 'x' :: '"' :: rest => if rest.getLast? = some '"' then readHexPairs rest.dropLast else none
  | _ => none

/-- The characters without spaces at the front. -/
def trimFront (l : List Char) : List Char :=
  l.dropWhile fun c => c == ' '

/-- The characters without spaces at either end. -/
def trim (l : List Char) : List Char :=
  (trimFront (trimFront l).reverse).reverse

/-- The pieces of a line between commas, where a comma between square brackets does not count; `piece` is the piece read
so far, reversed. -/
def splitCommas (l : List Char) (inside : Bool) (piece : List Char) : List (List Char) :=
  match l with
  | [] => [trim piece.reverse]
  | c :: rest =>
    if c = ',' ∧ inside = false then trim piece.reverse :: splitCommas rest inside []
    else splitCommas rest (if c = '[' then true else if c = ']' then false else inside) (c :: piece)

/-- All numbers of a list of pieces, each of 4 bits. -/
def readNibbles (l : List (List Char)) : Option (List Nibble) :=
  match l with
  | [] => some []
  | x :: rest =>
    match readField 4 x, readNibbles rest with
    | some n, some ns => some (n :: ns)
    | _, _ => none

/-- A table (R61): sixteen numbers in square brackets. -/
def readTable (l : List Char) : Option Table :=
  match l with
  | '[' :: rest =>
    if rest.getLast? = some ']' then (readNibbles (splitCommas rest.dropLast false [])).bind (exactly 16) else none
  | _ => none

/-- A position and a byte sequence. -/
def readPositionData (a b : List Char) (mk : Position → List Byte → Instr) : Option Instr :=
  match readField 128 a, readBytes b with
  | some p, some d => some (mk p d)
  | _, _ => none

/-- A command from its mnemonic and operand pieces (R54, R61). -/
def readCommand (name : List Char) (ops : List (List Char)) : Option Instr :=
  match ops with
  | [] =>
    if name = "GENTAB".toList then some .gentab
    else if name = "RDSTAT".toList then some .rdstat
    else if name = "CLR".toList then some .clr
    else none
  | [a] =>
    if name = "LDSEED".toList then ((readBytes a).bind (exactly 32)).map .ldseed
    else if name = "SEEK".toList then (readField 128 a).map .seek
    else if name = "DRAW".toList then (readField 32 a).map .draw
    else if name = "LDTAB".toList then (readTable a).map .ldtab
    else if name = "PERMW".toList then (readField 16 a).map .permw
    else if name = "UNPERMW".toList then (readField 16 a).map .unpermw
    else if name = "ENC".toList then (readField 8 a).map .enc
    else if name = "DEC".toList then (readField 16 a).map .dec
    else none
  | [a, b] =>
    if name = "ENCR".toList then readPositionData a b .encr
    else if name = "DECR".toList then readPositionData a b .decr
    else none
  | _ => none

/-- The command a line of text stands for (R61); a comment starts at a semicolon. None where the line is no command. -/
def assemble (line : List Char) : Option Instr :=
  let code := trim (line.takeWhile fun c => c != ';')
  let name := code.takeWhile fun c => c != ' '
  let operands := trim (code.drop name.length)
  readCommand name (if operands = [] then [] else splitCommas operands false [])

end Sys2Proof.Machine
end

