-- ==== Sys2Proof/Tests/Slice0.lean ====
section
/-!
SUPPORT. The model's own tests: the vectors of spec/95_test_vectors.md and the examples of the command rules, one step
each; words written out from spec/30_encoding.md; and a witness for the hypotheses of each statement.
-/

namespace Sys2Proof.Tests

set_option Elab.async false -- one thread: each waiting kernel check would hold another

open Sys2Proof.Machine Sys2Proof.Safety

/-! ### Helpers -/

/-- The next state, where there is one. -/
def after (o : Host.Outcome State Fault Refusal) : Option State :=
  match o with
  | .next t => some t
  | .fault _ => none
  | .refused _ => none

theorem next_of_after {o : Host.Outcome State Fault Refusal} {t : State} (h : after o = some t) : o = .next t := by
  cases o with
  | next s => exact congrArg _ (Option.some.inj h)
  | fault r => cases h
  | refused r => cases h

/-- Response and POS after a command. -/
def answer (o : Host.Outcome State Fault Refusal) : Option (Option Frame × Position) :=
  (after o).map fun t => (t.rspPort, t.pos)

/-- A block with generator `g`, a seed of 32 zero bytes loaded, and POS at `p`. -/
def seeded (g : GenId) (p : Position) : State :=
  { State.reset with build := { gen := g, maxData := none }, seedValid := true, pos := p }

/-- S* of spec/95_test_vectors.md section 2: 00 01 02 to 1F. -/
def starSeed : Seed := Vector.ofFn fun i : Fin 32 => BitVec.ofNat 8 i.val

/-- A block with `TGEN` and S* loaded. -/
def starState (p : Position) : State := { seeded .tgen p with seed := starSeed }

/-- The identity table. -/
def idTable : Table := #v[0, 1, 2, 3, 4, 5, 6, 7, 8, 9, 10, 11, 12, 13, 14, 15]

/-- The reversal. -/
def revTable : Table := #v[15, 14, 13, 12, 11, 10, 9, 8, 7, 6, 5, 4, 3, 2, 1, 0]

/-- T1 of V-BSC3. -/
def t1 : Table := #v[2, 7, 0, 1, 12, 6, 13, 8, 5, 10, 11, 15, 9, 4, 3, 14]

/-- A block with table `t` loaded and no seed. -/
def tabled (t : Table) : State := { State.reset with table := t, tableValid := true }

/-- Sixteen zero bytes: position 0 as operand bytes. -/
def zeroPos : List Byte := List.replicate 16 0

/-! ### Well-formedness: an ill-formed term for each check -/

theorem test_wf_encr_over_max : Instr.wf (some 4) (.encr 0 [1, 2, 3, 4, 5]) = false := by decide
theorem test_wf_decr_over_max : Instr.wf (some 4) (.decr 0 [1, 2, 3, 4, 5]) = false := by decide
theorem test_wf_at_max : Instr.wf (some 4) (.encr 0 [1, 2, 3, 4]) = true ∧ Instr.wf (some 4) (.decr 0 [1, 2, 3, 4]) = true := by
  decide

/-! ### Decoding: frames written out from R53, R54 -/

theorem test_decode_ldseed : decode none
    [0x01, 0x00, 0x01, 0x02, 0x03, 0x04, 0x05, 0x06, 0x07, 0x08, 0x09, 0x0A, 0x0B, 0x0C, 0x0D, 0x0E, 0x0F,
     0x10, 0x11, 0x12, 0x13, 0x14, 0x15, 0x16, 0x17, 0x18, 0x19, 0x1A, 0x1B, 0x1C, 0x1D, 0x1E, 0x1F] = .ok (.ldseed starSeed) := by
  rfl

theorem test_decode_seek : decode none [0x02, 0, 0, 0, 0, 0, 0, 0, 0, 0, 0, 0, 0, 0, 0, 0x01, 0x2C] = .ok (.seek 300) := by rfl
theorem test_decode_draw : decode none [0x03, 0x00, 0x00, 0x00, 0x0F] = .ok (.draw 15) := by rfl
theorem test_decode_gentab : decode none [0x04] = .ok .gentab := by rfl

theorem test_decode_ldtab :
    decode none [0x05, 0xFE, 0xDC, 0xBA, 0x98, 0x76, 0x54, 0x32, 0x10] = .ok (.ldtab revTable) := by rfl

theorem test_decode_permw : decode none [0x06, 0x80, 0x01] = .ok (.permw 0x8001) := by rfl
theorem test_decode_unpermw : decode none [0x07, 0x00, 0x03] = .ok (.unpermw 0x0003) := by rfl
theorem test_decode_enc : decode none [0x08, 0x48] = .ok (.enc 0x48) := by rfl
theorem test_decode_dec : decode none [0x09, 0xB7, 0x48] = .ok (.dec 0xB748) := by rfl

theorem test_decode_encr : decode none
    [0x0A, 0, 0, 0, 0, 0, 0, 0, 0, 0, 0, 0, 0, 0, 0, 0x01, 0x2C, 0x6F, 0x6B] = .ok (.encr 0x12C [0x6F, 0x6B]) := by rfl

theorem test_decode_decr : decode none
    [0x0B, 0x80, 0, 0, 0, 0, 0, 0, 0, 0, 0, 0, 0, 0, 0, 0, 0, 0x9A, 0x6A] = .ok (.decr (1#128 <<< 127) [0x9A, 0x6A]) := by rfl

theorem test_decode_rdstat : decode none [0x0C] = .ok .rdstat := by rfl
theorem test_decode_clr : decode none [0x0D] = .ok .clr := by rfl

/-- V-E1 to V-E7, V-E10: illegal frames, and V-E8, which is a legal one. -/
theorem test_decode_illegal :
    decode none [] = .error .empty ∧
    decode none [0x00] = .error (.reservedOpcode 0x00) ∧
    decode none [0x0E] = .error (.reservedOpcode 0x0E) ∧
    decode none [0xFF, 0x00, 0x00] = .error (.reservedOpcode 0xFF) ∧
    decode none [0x04, 0x00] = .error (.wrongLength 0x04 2) ∧
    decode none [0x03, 0x00, 0x00, 0x0F] = .error (.wrongLength 0x03 4) ∧
    decode none [0x0A, 0x00, 0x00, 0x00] = .error (.wrongLength 0x0A 4) ∧
    decode none [0x0D, 0x00] = .error (.wrongLength 0x0D 2) ∧
    decode none (0x0B :: (zeroPos ++ [0xAA])) = .ok (.decr 0 [0xAA]) :=
  ⟨rfl, rfl, rfl, rfl, rfl, rfl, rfl, rfl, rfl⟩

/-- V-E11, and the same frame at the limit. -/
theorem test_decode_maxData :
    decode (some 4) (0x0A :: (zeroPos ++ [1, 2, 3, 4, 5])) = .error (.overMaxData 5) ∧
    decode (some 5) (0x0A :: (zeroPos ++ [1, 2, 3, 4, 5])) = .ok (.encr 0 [1, 2, 3, 4, 5]) := ⟨rfl, rfl⟩

/-- The opcode table's numbering: the first byte is bits 7..0. DRAW 15, 5 bytes; ENCR given no operand bits. -/
theorem test_decodeTableWord :
    decodeTableWord 40 0x0F00000003 = some (.draw 15) ∧ decodeTableWord 8 0x04 = some .gentab ∧
    decodeTableWord 8 0x0A = some (.encr 0 []) := ⟨rfl, rfl, rfl⟩

/-- Every row of the opcode map, given its opcode alone: it decodes, and it is the first command to run after reset. -/
theorem test_every_row_runs :
    (List.range 13).all (fun k => (decodeTableWord 8 (k + 1)).isSome &&
      (after (step (State.reset.withFetchWord 8 (k + 1)))).isSome) = true := by decide +kernel

/-- A placed instruction is the next to run: RDSTAT after reset (V-E9), LDTAB of the identity (V-PG6). -/
theorem test_withFetchWord_runs :
    after (step (State.reset.withFetchWord 8 0x0C)) = some { State.reset with rspPort := some [0x00, 0x00] } ∧
    after (step (State.reset.withFetchWord 72 0xEFCDAB896745230105)) = some { tabled idTable with rspPort := some [0x00] } := by
  decide +kernel

/-! ### Functions: vectors independent of the generator -/

/-- Words of `TGEN` under S* (section 2). -/
theorem test_tgen : tgen starSeed 0 = 0x055135D2 ∧ tgen starSeed 20 = 0xFDAF1040 ∧ mix32 0 = 0 := by decide +kernel

/-- V-BSC1. -/
theorem test_double : [0x00, 0xFF, 0x01, 0x80, 0xA5, 0x48, 0x69, 0x21].map double =
    [0xFF00, 0x00FF, 0xFE01, 0x7F80, 0x5AA5, 0xB748, 0x9669, 0xDE21] := by decide

/-- V-PG-C and V-PG-D: the order-preserving removal, through a generator that answers the listed indices. -/
theorem test_generate_from_indices :
    generate (fun _ p => BitVec.ofNat 32 ([3, 3, 3, 3, 0, 0, 0, 0, 7, 6, 5, 4, 3, 2, 1, 0].getD p.toNat 0)) Seed.zero 0 =
      .done #v[3, 4, 5, 6, 0, 1, 2, 7, 15, 14, 13, 12, 11, 10, 9, 8] 16 ∧
    generate (fun _ p => BitVec.ofNat 32 ([15, 0, 13, 0, 11, 0, 9, 0, 7, 0, 5, 0, 3, 0, 1, 0].getD p.toNat 0)) Seed.zero 0 =
      .done #v[15, 0, 14, 1, 13, 2, 12, 3, 11, 4, 10, 5, 9, 6, 8, 7] 16 := by decide +kernel

/-- V-BSC2: the rows of 0x01 and 0x80 under identity, reversal and rotate-up-one. -/
theorem test_encodeUnit :
    encodeUnit idTable 0x01 = [0xFE, 0x01] ∧ encodeUnit revTable 0x01 = [0x80, 0x7F] ∧
    encodeUnit #v[1, 2, 3, 4, 5, 6, 7, 8, 9, 10, 11, 12, 13, 14, 15, 0] 0x01 = [0xFC, 0x03] ∧
    encodeUnit idTable 0x80 = [0x7F, 0x80] ∧ encodeUnit revTable 0x80 = [0x01, 0xFE] ∧
    encodeUnit #v[1, 2, 3, 4, 5, 6, 7, 8, 9, 10, 11, 12, 13, 14, 15, 0] 0x80 = [0xFF, 0x00] := by decide +kernel

/-! ### Commands: at most two per command, one step each -/

/-- The example of R70. -/
theorem test_ldseed : after (exec (.ldseed starSeed) (tabled t1)) =
    some { State.reset with seed := starSeed, seedValid := true, rspPort := some [0x00] } := by decide +kernel

/-- The top position is an ordinary one (R71). -/
theorem test_seek_top : answer (exec (.seek (BitVec.allOnes 128)) (seeded .cgen 5)) = some (some [0x00], BitVec.allOnes 128) := by
  decide +kernel

/-- V-KS16. -/
theorem test_seek_noSeed : after (exec (.seek 7) State.reset) = some { State.reset with rspPort := some [0x03] } := by
  decide +kernel

/-- V-KS5, V-KS11, V-KS12: rejection, the largest range, the wrap at the top. -/
theorem test_draw_rejects :
    answer (exec (.draw 5) (seeded .cgen 6)) = some (some [0, 0, 0, 0, 0], 9) ∧
    answer (exec (.draw 0xFFFFFFFF) (seeded .cgen 0xFFFFFFFF)) = some (some [0, 0, 0, 0, 0], 0x100000001) ∧
    answer (exec (.draw 15) (seeded .cgen (BitVec.allOnes 128))) = some (some [0, 0, 0, 0, 0], 1) := by decide +kernel

/-- V-KS8, V-KS10, V-KS20, V-KS15. -/
theorem test_draw_answers :
    answer (exec (.draw 1000) (seeded .cgen 0x12345678)) = some (some [0, 0, 0, 0x02, 0x78], 0x12345679) ∧
    answer (exec (.draw 0xFFFFFFFF) (seeded .cgen 0x80000000)) = some (some [0, 0x80, 0, 0, 0], 0x80000001) ∧
    answer (exec (.draw 12) (starState 4)) = some (some [0, 0, 0, 0, 0x08], 6) ∧
    answer (exec (.draw 0) State.reset) = some (some [0x02], 0) := by decide +kernel

/-- V-PG2. -/
theorem test_gentab_cgen : after (exec .gentab (seeded .cgen 9)) = some
    { seeded .cgen 31 with
      table := #v[9, 11, 13, 15, 0, 2, 4, 6, 8, 12, 1, 5, 10, 3, 14, 7], tableValid := true,
      rspPort := some [0x00, 0x9B, 0xDF, 0x02, 0x46, 0x8C, 0x15, 0xA3, 0xE7] } := by decide +kernel

/-- V-PG3 and V-PG4: the wrap, and `TGEN`. -/
theorem test_gentab_wraps :
    answer (exec .gentab (seeded .cgen (BitVec.ofNat 128 (2 ^ 128 - 4)))) =
      some (some [0x00, 0xCE, 0x02, 0x46, 0x8A, 0xD1, 0x59, 0xF3, 0xB7], 15) ∧
    answer (exec .gentab (starState 0)) = some (some [0x00, 0x27, 0x01, 0xC6, 0xD8, 0x5A, 0xBF, 0x94, 0x3E], 21) := by
  decide +kernel

/-- V-PG6: a repeated entry, and sixteen zeros. -/
theorem test_ldtab_refuses :
    after (exec (.ldtab #v[0, 0, 2, 3, 4, 5, 6, 7, 8, 9, 10, 11, 12, 13, 14, 15]) (tabled t1)) =
      some { tabled t1 with rspPort := some [0x02] } ∧
    after (exec (.ldtab Table.zero) State.reset) = some { State.reset with rspPort := some [0x02] } := by decide +kernel

/-- V-BSC3, and the example of R107. -/
theorem test_permw :
    answer (exec (.permw 0xB748) (tabled t1)) = some (some [0x00, 0x6E, 0x32], 0) ∧
    answer (exec (.permw 0x8000) (tabled t1)) = some (some [0x00, 0x40, 0x00], 0) ∧
    answer (exec (.permw 0x8001) (tabled #v[1, 2, 3, 4, 5, 6, 7, 8, 9, 10, 11, 12, 13, 14, 15, 0])) =
      some (some [0x00, 0x00, 0x03], 0) := by decide +kernel

/-- V-BSC3. -/
theorem test_unpermw :
    answer (exec (.unpermw 0x8000) (tabled t1)) = some (some [0x00, 0x08, 0x00], 0) ∧
    answer (exec (.unpermw 0x1234) (tabled t1)) = some (some [0x00, 0x31, 0x11], 0) := by decide +kernel

/-- V-BSC4, and the reversal example of R109. -/
theorem test_enc :
    answer (exec (.enc 0x48) (tabled t1)) = some (some [0x00, 0x6E, 0x32], 0) ∧
    answer (exec (.enc 0x48) (tabled revTable)) = some (some [0x00, 0x12, 0xED], 0) ∧
    answer (exec (.enc 0x48) State.reset) = some (some [0x04], 0) := by decide +kernel

/-- V-BSC4: good, one flipped bit, two paired flipped bits, all ones. -/
theorem test_dec :
    answer (exec (.dec 0x6E32) (tabled t1)) = some (some [0x00, 0x48], 0) ∧
    answer (exec (.dec 0x6E33) (tabled t1)) = some (some [0x11], 0) ∧
    answer (exec (.dec 0x6E16) (tabled t1)) = some (some [0x00, 0x49], 0) ∧
    answer (exec (.dec 0xFFFF) (tabled t1)) = some (some [0x11], 0) := by decide +kernel

/-- V-BSC11: equal bytes, different units. -/
theorem test_encr_cgen : after (exec (.encr 9 [0x48, 0x48]) (seeded .cgen 77)) = some
    { seeded .cgen 47 with
      table := #v[15, 0, 2, 4, 6, 8, 10, 12, 14, 1, 5, 9, 13, 3, 11, 7], tableValid := true,
      rspPort := some [0x00, 0x95, 0x9A, 0x64, 0xBA] } := by decide +kernel

/-- V-BSC9, and ENCR of no data (R111). -/
theorem test_encr_tgen :
    answer (exec (.encr 0 [0x48, 0x69, 0x21]) (starState 3)) = some (some [0x00, 0x6E, 0x32, 0x33, 0x4E, 0xC2, 0x8F], 65) ∧
    after (exec (.encr 9 []) (starState 3)) = some { starState 9 with rspPort := some [0x00] } := by decide +kernel

/-- V-BSC8, V-BSC6, V-BSC9 under the wrong seed. -/
theorem test_decr_errors :
    answer (exec (.decr 0 [0x9A, 0x6A, 0x96, 0x68]) (seeded .cgen 5)) = some (some [0x11], 32) ∧
    answer (exec (.decr 0 [0x9A, 0x6B, 0x96, 0x69]) (seeded .cgen 5)) = some (some [0x11], 16) ∧
    answer (exec (.decr 0 [0x9A, 0x6A, 0x96]) (seeded .cgen 5)) = some (some [0x10], 5) ∧
    answer (exec (.decr 0 [0x6E, 0x32, 0x33, 0x4E, 0xC2, 0x8F]) (seeded .tgen 5)) = some (some [0x11], 24) := by decide +kernel

/-- V-BSC9. -/
theorem test_decr_tgen :
    answer (exec (.decr 0 [0x6E, 0x32, 0x33, 0x4E, 0xC2, 0x8F]) (starState 3)) = some (some [0x00, 0x48, 0x69, 0x21], 65) := by
  decide +kernel

/-- The examples of R130. -/
theorem test_rdstat :
    answer (exec .rdstat State.reset) = some (some [0x00, 0x00], 0) ∧
    answer (exec .rdstat (seeded .cgen 0)) = some (some [0x00, 0x01], 0) ∧
    answer (exec .rdstat (tabled idTable)) = some (some [0x00, 0x02], 0) := by decide +kernel

/-- P2, step 6. -/
theorem test_clr : after (exec .clr { starState 65 with table := t1, tableValid := true }) = some
    { State.reset with build := { gen := .tgen, maxData := none }, rspPort := some [0x00] } := by decide +kernel

/-- An illegal frame on the port is answered IllegalCommand (V-E2). -/
theorem test_step_illegal : after (step { starState 7 with cmdPort := [[0x00], [0x0C]] }) =
    some { starState 7 with cmdPort := [[0x0C]], rspPort := some [0x01] } := by decide +kernel

/-- Reset ends a hang (R201), and no frame of before is answered. -/
theorem test_step_reset : after (step { seeded .ones 6 with hung := true, cmdPort := [[0x0C]], hostMoves := [.reset, .take] }) =
    some { State.reset with build := { gen := .ones, maxData := none }, hostMoves := [.take] } := by decide +kernel

/-- Lines of R61. -/
theorem test_assemble :
    assemble "SEEK 0x0123".toList = some (.seek 0x0123) ∧
    assemble "LDTAB [15,14,13,12,11,10,9,8,7,6,5,4,3,2,1,0]".toList = some (.ldtab revTable) ∧
    assemble "DECR 0, x\"9A6A9669\" ; V-BSC5".toList = some (.decr 0 [0x9A, 0x6A, 0x96, 0x69]) ∧
    assemble "ENC 256".toList = none := by decide +kernel

/-! ### Generators for the witnesses -/

/-- `CGEN` is live: from every position the word at position 0 is reached, and it is accepted by every range. -/
theorem cgen_live : Live cgen := by
  intro seed p k n _ _ hn _ _
  refine ⟨(0 - p).toNat, (0 - p).isLt, ?_⟩
  have h0 : p + BitVec.ofNat 128 (0 - p).toNat = 0 := by
    rw [BitVec.ofNat_toNat, BitVec.setWidth_eq]
    simp
  rw [h0, show (cgen seed 0).toNat = 0 from rfl, Nat.zero_mod]
  exact Nat.lt_of_le_of_lt (Nat.zero_le _) hn

/-- Under `ONES` no word is accepted for 15 values (R76). -/
theorem ones_rejects (seed : Seed) (p : Position) : ¬ accepted ones seed 15 p := by
  unfold accepted ones
  decide +kernel

/-- Under `ONES` the second draw of a table never ends. -/
theorem ones_table_endless (seed : Seed) (p : Position) : generate ones seed p = .endless (p + 1) := by
  have h16 : nextBounded ones seed (15 + 1) p = .done 15 (p + 1) := by
    rw [nextBounded_eq_done_iff]
    refine ⟨0, Nat.two_pow_pos _, fun j hj => absurd hj (Nat.not_lt_zero j), ?_, by decide, by simp⟩
    unfold ones
    decide +kernel
  have h15 : nextBounded ones seed (14 + 1) (p + 1) = .endless (p + 1) := by
    rw [nextBounded_eq_endless_iff]
    exact ⟨rfl, fun j _ => ones_rejects seed _⟩
  exact generate_endless (generateRounds_endless_later h16 (generateRounds_endless_first h15))

/-! ### Witnesses: states and operands that meet the hypotheses of each statement -/

/-- SeekMovesThePosition: a seed, and none. -/
theorem witness_seek : (seeded .cgen 5).seedValid = true ∧ State.reset.seedValid = false := ⟨rfl, rfl⟩

/-- DrawAnswersTheFirstAcceptedWord: accepted at once, and after a rejection at the top position. -/
theorem witness_draw_first :
    (0xFFFFFFFF : BitVec 32) ≠ 0 ∧ (seeded .cgen 0).seedValid = true ∧
    accepted cgen Seed.zero 0xFFFFFFFF (0 + BitVec.ofNat 128 0) ∧
    (∀ b < 0, ¬ accepted cgen Seed.zero 0xFFFFFFFF (0 + BitVec.ofNat 128 b)) := by
  refine ⟨by decide, rfl, ?_, by omega⟩
  unfold accepted
  decide +kernel

theorem witness_draw_second :
    (15 : BitVec 32) ≠ 0 ∧ (seeded .cgen (BitVec.allOnes 128)).seedValid = true ∧
    accepted cgen Seed.zero 15 (BitVec.allOnes 128 + BitVec.ofNat 128 1) ∧
    (∀ b < 1, ¬ accepted cgen Seed.zero 15 (BitVec.allOnes 128 + BitVec.ofNat 128 b)) := by
  unfold accepted
  decide +kernel

/-- DrawAnswersTheFirstAcceptedWord, its errors: 0, and the least and greatest other operands without a seed. -/
theorem witness_draw_errors : (0 : BitVec 32) = 0 ∧ (1 : BitVec 32) ≠ 0 ∧ (0xFFFFFFFF : BitVec 32) ≠ 0 ∧
    State.reset.seedValid = false := by decide

/-- DrawOfAPowerOfTwoTakesOneWord: the least and the greatest exponent. -/
theorem witness_power_of_two : 0 < 32 ∧ 31 < 32 ∧ (seeded .ones 5).seedValid = true := by decide

/-- DrawsThatNeverAcceptHang, and the hang of GentabKeepsAndAnswersTheTable: one witness per clause; unit 0 of the least data
that ENCR and DECR draw a table for. -/
theorem witness_hang :
    (seeded .ones 5).seedValid = true ∧
    ((15 : BitVec 32) ≠ 0 ∧ ∀ p, ¬ accepted (seeded .ones 5).gen (seeded .ones 5).seed (15 : BitVec 32).toNat p) ∧
    generate (seeded .ones 5).gen (seeded .ones 5).seed (seeded .ones 5).pos = .endless 6 ∧
    (unitTables (seeded .ones 5).gen (seeded .ones 5).seed 0 9 = .done [] 9 ∧
      generate (seeded .ones 5).gen (seeded .ones 5).seed 9 = .endless 10) ∧
    0 < [0x48#8].length ∧
    ([0x9A#8, 0x6A#8].length % 2 = 0 ∧ 0 < (pairs [0x9A, 0x6A]).length ∧
      List.zipWith (fun t c => decodeUnit t c.1 c.2) [] (pairs [0x9A, 0x6A]) = ([] : List Byte).map some) :=
  ⟨rfl, ⟨by decide, fun p => ones_rejects _ p⟩, ones_table_endless _ 5, ⟨rfl, ones_table_endless _ 9⟩, by decide, by decide⟩

/-- DrawAfterSeekIgnoresThePast: a block that seeks to 9, and one that stands there already. -/
theorem witness_seek_past :
    (seeded .cgen 9).seed = (seeded .cgen 5).seed ∧ (seeded .cgen 9).build = (seeded .cgen 5).build ∧
    (seeded .cgen 5).seedValid = true ∧ (seeded .cgen 9).seedValid = true ∧ (seeded .cgen 9).pos = 9 ∧
    (seeded .cgen 9).rspPort = none ∧
    ∃ a b v, exec (.seek 9) (seeded .cgen 5) = .next a ∧ exec (.draw 16) { a with rspPort := none } = .next b ∧
      exec (.draw 16) (seeded .cgen 9) = .next v :=
  ⟨rfl, rfl, rfl, rfl, rfl, rfl, { seeded .cgen 9 with rspPort := some [0x00] },
    { seeded .cgen 10 with rspPort := some [0x00, 0, 0, 0, 9] }, { seeded .cgen 10 with rspPort := some [0x00, 0, 0, 0, 9] },
    rfl, next_of_after (by decide +kernel), next_of_after (by decide +kernel)⟩

/-- DrawsEndExactlyWhereAWordIsAccepted: the least range, which is a power of two, and the greatest; a word accepted, and a
draw that ends. -/
theorem witness_live_draw : Live cgen ∧ (1 ≤ 1 ∧ 1 < 2 ^ 32 ∧ 1 = 2 ^ 0) ∧ (1 ≤ 2 ^ 32 - 1 ∧ 2 ^ 32 - 1 < 2 ^ 32) ∧
    nextBounded cgen Seed.zero 0xFFFFFFFF 0xFFFFFFFF = .done 0 0x100000001 :=
  ⟨cgen_live, by decide, by decide, by decide +kernel⟩

/-- A block ready for use meets the invariant. -/
theorem seeded_inv (g : GenId) (p : Position) : BlockInv (seeded g p) where
  tableIsPerm h := by cases h
  tableIsZero _ := rfl
  seedIsZero h := by cases h
  hungIsSeeded h := by cases h
  rspIsLegal r h := by cases h

/-- LiveGeneratorAnswersEveryCommand. -/
theorem witness_live_answer : Live (seeded .cgen 5).gen ∧ BlockInv (seeded .cgen 5) ∧ (seeded .cgen 5).hung = false ∧
    (seeded .cgen 5).rspPort = none := ⟨cgen_live, seeded_inv _ _, rfl, rfl⟩

/-- GentabKeepsAndAnswersTheTable, GenerateGivesAPermutation, GenerateDrawsFromAShrinkingPool: a table (V-PG1), and no seed. -/
theorem witness_gentab :
    State.reset.seedValid = false ∧ (seeded .cgen 0).seedValid = true ∧
    generate (seeded .cgen 0).gen (seeded .cgen 0).seed (seeded .cgen 0).pos =
      .done #v[0, 2, 4, 6, 8, 10, 12, 14, 1, 5, 9, 13, 3, 11, 7, 15] 16 := by decide +kernel

/-- LdtabLoadsPermutationsOnly, PermAndUnpermPlaceTheBits, PermAndUnpermAreInverse: permutations, and tables with a repeated
entry at either end. -/
theorem witness_perm :
    isPerm t1 = true ∧ isPerm idTable = true ∧ isPerm #v[0, 0, 2, 3, 4, 5, 6, 7, 8, 9, 10, 11, 12, 13, 14, 15] = false ∧
    isPerm #v[0, 1, 2, 3, 4, 5, 6, 7, 8, 9, 10, 11, 12, 13, 14, 14] = false ∧ isPerm Table.zero = false := by decide +kernel

/-- EncodedUnitsHaveWeightEight: values of weight seven and nine. -/
theorem witness_weight : isPerm t1 = true ∧ weight (ofBe2 0x6E 0x30) ≠ 8 ∧ weight (ofBe2 0x6E 0x33) ≠ 8 := by decide +kernel

/-- SingleBitFlipsAreCaught: the flips of V-BSC4, at the lowest and the highest position, and of a pair. -/
theorem witness_flip :
    isPerm t1 = true ∧
    ofBe2 0x6E 0x33 = perm16 t1 (double 0x48) ^^^ 1#16 <<< (0 : Fin 16).val ∧
    ofBe2 0xEE 0x32 = perm16 t1 (double 0x48) ^^^ 1#16 <<< (15 : Fin 16).val ∧
    ofBe2 0x6E 0x16 = perm16 t1 (double 0x48) ^^^ 1#16 <<< (t1[0]).toNat ^^^ 1#16 <<< (t1[8]).toNat := by decide +kernel

/-- PermwAnswersThePermutedValue, UnpermwAnswersTheUnpermutedValue, EncAnswersTheEncodedUnit, DecAnswersTheByteOrCorrupt: no
table, and a permutation; for DEC a passing and a failing check. -/
theorem witness_table :
    State.reset.tableValid = false ∧ (tabled t1).tableValid = true ∧ isPerm (tabled t1).table = true ∧
    check (unperm16 (tabled t1).table 0x6E32) = true ∧ check (unperm16 (tabled t1).table 0x6E33) = false := by decide +kernel

/-- UnpermwUndoesPermwOnTheBlock. -/
theorem witness_permw_undo : isPerm t1 = true ∧ State.reset.rspPort = none ∧
    ∃ a b, exec (.ldtab t1) State.reset = .next a ∧ exec (.permw 0xB748) { a with rspPort := none } = .next b :=
  ⟨by decide +kernel, rfl, { tabled t1 with rspPort := some [0x00] }, { tabled t1 with rspPort := some [0x00, 0x6E, 0x32] },
    next_of_after (by decide +kernel), next_of_after (by decide +kernel)⟩

/-- TableCommandsRefuseNonPermutations: a state no run reaches. -/
theorem witness_refuse : (tabled Table.zero).tableValid = true ∧ isPerm (tabled Table.zero).table = false := by decide +kernel

/-- EncrEncodesEachByteUnderItsOwnTable: no seed; no data; one byte. -/
theorem witness_encr :
    State.reset.seedValid = false ∧ (seeded .cgen 5).seedValid = true ∧
    unitTables cgen Seed.zero ([] : List Byte).length 9 = .done [] 9 ∧
    unitTables cgen Seed.zero [0x48#8].length 9 = .done [#v[9, 11, 13, 15, 0, 2, 4, 6, 8, 12, 1, 5, 10, 3, 14, 7]] 31 := by
  decide +kernel

/-- DecrDecodesEachPairUnderItsOwnTable: odd data; even data without a seed; no data; one good pair (V-BSC11). -/
theorem witness_decr :
    [0xAA#8].length % 2 = 1 ∧ [0x9A#8, 0x6A#8].length % 2 = 0 ∧ State.reset.seedValid = false ∧ (seeded .cgen 5).seedValid = true ∧
    (unitTables cgen Seed.zero (([] : List Byte).length / 2) 9 = .done [] 9 ∧
      List.zipWith (fun t c => decodeUnit t c.1 c.2) [] (pairs []) = ([] : List Byte).map some) ∧
    (unitTables cgen Seed.zero ([0x95#8, 0x9A#8].length / 2) 9 =
        .done [#v[9, 11, 13, 15, 0, 2, 4, 6, 8, 12, 1, 5, 10, 3, 14, 7]] 31 ∧
      List.zipWith (fun t c => decodeUnit t c.1 c.2) [#v[9, 11, 13, 15, 0, 2, 4, 6, 8, 12, 1, 5, 10, 3, 14, 7]]
        (pairs [0x95, 0x9A]) = [0x48#8].map some) := by decide +kernel

/-- DecrStopsAtTheFirstCorruptUnit: the first unit fails, and the last one does (V-BSC8). -/
theorem witness_decr_first :
    [0x9A#8, 0x6B, 0x96, 0x69].length % 2 = 0 ∧ (seeded .cgen 5).seedValid = true ∧
    unitTables cgen Seed.zero 0 0 = .done [] 0 ∧
    generate cgen Seed.zero 0 = .done #v[0, 2, 4, 6, 8, 10, 12, 14, 1, 5, 9, 13, 3, 11, 7, 15] 16 ∧
    List.zipWith (fun t c => decodeUnit t c.1 c.2) [] (pairs [0x9A, 0x6B, 0x96, 0x69]) = ([] : List Byte).map some ∧
    (pairs [0x9A, 0x6B, 0x96, 0x69])[0]? = some (0x9A, 0x6B) ∧
    decodeUnit #v[0, 2, 4, 6, 8, 10, 12, 14, 1, 5, 9, 13, 3, 11, 7, 15] 0x9A 0x6B = none := by decide +kernel

theorem witness_decr_last :
    [0x9A#8, 0x6A, 0x96, 0x68].length % 2 = 0 ∧ (seeded .cgen 5).seedValid = true ∧
    unitTables cgen Seed.zero 1 0 = .done [#v[0, 2, 4, 6, 8, 10, 12, 14, 1, 5, 9, 13, 3, 11, 7, 15]] 16 ∧
    generate cgen Seed.zero 16 = .done #v[0, 2, 4, 6, 8, 10, 12, 14, 1, 5, 9, 13, 3, 11, 7, 15] 32 ∧
    List.zipWith (fun t c => decodeUnit t c.1 c.2) [#v[0, 2, 4, 6, 8, 10, 12, 14, 1, 5, 9, 13, 3, 11, 7, 15]]
      (pairs [0x9A, 0x6A, 0x96, 0x68]) = [0x48#8].map some ∧
    (pairs [0x9A, 0x6A, 0x96, 0x68])[1]? = some (0x96, 0x68) ∧
    decodeUnit #v[0, 2, 4, 6, 8, 10, 12, 14, 1, 5, 9, 13, 3, 11, 7, 15] 0x96 0x68 = none := by decide +kernel

/-- The block after ENCR 0, x"48" under `CGEN` (V-BSC5, unit 0). -/
def encrypted : State :=
  { seeded .cgen 16 with table := #v[0, 2, 4, 6, 8, 10, 12, 14, 1, 5, 9, 13, 3, 11, 7, 15], tableValid := true,
                         rspPort := some [0x00, 0x9A, 0x6A] }

/-- RawDataKeepLengthAndOrder, RawResponsesIgnoreThePast: ENCR of one byte, from two pasts, and DECR. -/
theorem witness_raw :
    (seeded .cgen 5).seedValid = true ∧ (seeded .cgen 5).hung = false ∧ encrypted.hung = false ∧
    encrypted.rspPort = some [0x00, 0x9A, 0x6A] ∧
    exec (.encr 0 [0x48]) (seeded .cgen 5) = .next encrypted ∧ exec (.encr 0 [0x48]) (seeded .cgen 77) = .next encrypted ∧
    exec (.decr 0 [0x9A, 0x6A]) (seeded .cgen 5) = .next { encrypted with rspPort := some [0x00, 0x48] } ∧
    exec (.decr 0 [0x9A, 0x6A]) (seeded .cgen 77) = .next { encrypted with rspPort := some [0x00, 0x48] } ∧
    (seeded .cgen 5).seed = (seeded .cgen 77).seed ∧ (seeded .cgen 5).build = (seeded .cgen 77).build :=
  ⟨rfl, rfl, rfl, rfl, next_of_after (by decide +kernel), next_of_after (by decide +kernel), next_of_after (by decide +kernel),
    next_of_after (by decide +kernel), rfl, rfl⟩

/-- DecrUndoesEncr: one byte, decoded on the block that has just run the ENCR, whose table is another than before it; and no
data, on a block with the same table. -/
theorem witness_decr_undo :
    (exec (.encr 0 [0x48]) (seeded .cgen 5) = .next encrypted ∧ encrypted.hung = false ∧
      encrypted.rspPort = some [0x00, 0x9A, 0x6A] ∧ encrypted.seed = (seeded .cgen 5).seed ∧
      encrypted.build = (seeded .cgen 5).build ∧ encrypted.seedValid = true ∧ encrypted.table ≠ (seeded .cgen 5).table ∧
      ([0x48#8] = [] → encrypted.table = (seeded .cgen 5).table ∧ encrypted.tableValid = (seeded .cgen 5).tableValid)) ∧
    (exec (.encr 0 []) (seeded .cgen 5) = .next { seeded .cgen 0 with rspPort := some [0x00] } ∧
      (seeded .cgen 0).seed = (seeded .cgen 5).seed ∧ (seeded .cgen 0).table = (seeded .cgen 5).table ∧
      (seeded .cgen 0).tableValid = (seeded .cgen 5).tableValid) :=
  ⟨⟨next_of_after (by decide +kernel), rfl, rfl, rfl, rfl, rfl, by decide, (fun h => by cases h)⟩,
    ⟨next_of_after (by decide +kernel), rfl, rfl, rfl⟩⟩

/-- EncrEqualsItsExpansion, DecrEqualsItsExpansion, DecodeUndoesEncode: data at MAX_DATA. -/
theorem witness_maxData : withinMaxData (some 2) [0x9A#8, 0x6A#8].length = true ∧ [0x9A#8, 0x6A#8].length % 2 = 0 ∧
    Instr.wf (some 2) (.encr 0 [0x9A, 0x6A]) = true ∧ Instr.wf (some 0) (.decr 0 []) = true := by decide

/-- EncodeUndoesDecode: a frame at MAX_DATA. -/
theorem witness_decode : decode (some 1) (0x0A :: (zeroPos ++ [0x48])) = .ok (.encr 0 [0x48]) := rfl

/-- FlagsChangeOnlyByTheirCommands, one per clause: the seed flag set and cleared, the table flag set and cleared. -/
theorem witness_flags :
    (exec (.ldseed starSeed) State.reset = .next { State.reset with seed := starSeed, seedValid := true, rspPort := some [0x00] } ∧
      State.reset.seedValid = false) ∧
    (exec .clr (seeded .cgen 5) = .next { seeded .cgen 0 with seedValid := false, rspPort := some [0x00] } ∧
      (seeded .cgen 5).seedValid = true) ∧
    (exec (.ldtab t1) State.reset = .next { tabled t1 with rspPort := some [0x00] } ∧ State.reset.tableValid = false) ∧
    (exec .clr (tabled t1) = .next { State.reset with rspPort := some [0x00] } ∧ (tabled t1).tableValid = true) :=
  ⟨⟨rfl, rfl⟩, ⟨rfl, rfl⟩, ⟨next_of_after (by decide +kernel), rfl⟩, ⟨rfl, rfl⟩⟩

/-- CommandsWriteOnlyTheirRegisters, OtherCommandsNeverReadTheKeystream, OneResponsePerCommand: a command of each shape with
a next state. -/
theorem witness_shapes :
    (exec .rdstat (seeded .cgen 5) = .next { seeded .cgen 5 with rspPort := some [0x00, 0x01] } ∧ (seeded .cgen 5).rspPort = none ∧
      (seeded .cgen 5).hung = false) ∧
    exec (.seek 7) (seeded .cgen 5) = .next { seeded .cgen 7 with rspPort := some [0x00] } ∧
    exec (.draw 16) (seeded .cgen 5) = .next { seeded .cgen 6 with rspPort := some [0x00, 0, 0, 0, 5] } ∧
    exec (.encr 0 [0x48]) (seeded .cgen 5) = .next encrypted :=
  ⟨⟨rfl, rfl, rfl⟩, rfl, next_of_after (by decide +kernel), next_of_after (by decide +kernel)⟩

/-- IllegalFramesAreExactlyThoseOfTheRule, each clause at its boundary: the empty frame; 0x00 and 0x0E; one byte too few for
DRAW; one data byte over MAX_DATA, and data at MAX_DATA. -/
theorem witness_illegal :
    (decode (some 1) [] = .error .empty) ∧
    (decode (some 1) [0x00] = .error (.reservedOpcode 0x00) ∧ decode (some 1) [0x0E] = .error (.reservedOpcode 0x0E)) ∧
    (decode (some 1) [0x03, 0, 0, 0] = .error (.wrongLength 0x03 4) ∧
      (opcodeRow 0x03).map (fun row => row.format.legalLength 4) = some false) ∧
    (decode (some 1) (0x0B :: (zeroPos ++ [0x9A, 0x6A])) = .error (.overMaxData 2) ∧
      decode (some 1) (0x0B :: (zeroPos ++ [0x9A])) = .ok (.decr 0 [0x9A])) := ⟨rfl, ⟨rfl, rfl⟩, ⟨rfl, rfl⟩, ⟨rfl, rfl⟩⟩

/-- OperandsAreAssembledBigEndian: sixteen position bytes, with data at MAX_DATA. -/
theorem witness_position : zeroPos.length = 16 ∧ withinMaxData (some 1) [0x48#8].length = true := by decide

/-- StepKeepsTheInvariant, TheBlockNeverStops, StepRunsTheAcceptedCommand, NoStepChangesTheBuild: a state that meets the invariant and accepts
RDSTAT. -/
theorem witness_step :
    BlockInv { seeded .cgen 5 with cmdPort := [[0x0C], [0x0D]] } ∧
    Accepts { seeded .cgen 5 with cmdPort := [[0x0C], [0x0D]] } [0x0C] [[0x0D]] ∧ decode none [0x0C] = .ok .rdstat ∧
    step { seeded .cgen 5 with cmdPort := [[0x0C], [0x0D]] } =
      .next { seeded .cgen 5 with cmdPort := [[0x0D]], rspPort := some [0x00, 0x01] } ∧
    Host.Core.run Sys2Proof.core 1 { seeded .cgen 5 with cmdPort := [[0x0C], [0x0D]] } =
      .next { seeded .cgen 5 with cmdPort := [[0x0D]], rspPort := some [0x00, 0x01] } :=
  ⟨⟨(fun h => by cases h), (fun _ => rfl), (fun h => by cases h), (fun h => by cases h), (fun r h => by cases h)⟩,
    ⟨rfl, rfl, rfl, rfl⟩, rfl, rfl, rfl⟩

/-- IllegalFrameIsAnsweredIllegalCommand. -/
theorem witness_step_illegal :
    Accepts { seeded .cgen 5 with cmdPort := [[0x00], [0x0D]] } [0x00] [[0x0D]] ∧ decode none [0x00] = .error (.reservedOpcode 0x00) :=
  ⟨⟨rfl, rfl, rfl, rfl⟩, rfl⟩

/-- ErrorsChangeNoRegister: an error of one byte, and Corrupt in DECR. -/
theorem witness_errors :
    (State.reset.rspPort = none ∧ exec (.draw 0) State.reset = .next { State.reset with rspPort := some [0x02] } ∧
      (0x02 : Byte) ≠ 0x00) ∧
    ((seeded .cgen 5).rspPort = none ∧
      exec (.decr 0 [0x9A, 0x6B]) (seeded .cgen 5) = .next { encrypted with rspPort := some [0x11] } ∧ (0x11 : Byte) ≠ 0x00) :=
  ⟨⟨rfl, rfl, by decide⟩, ⟨rfl, next_of_after (by decide +kernel), by decide⟩⟩

/-- UntakenResponseHoldsTheBlock, one per move of the host, and IdleBlockKeepsItsState with a response not taken. -/
theorem witness_untaken :
    (∀ moves, { encrypted with cmdPort := [[0x0C]], hostMoves := moves }.rspPort = some [0x00, 0x9A, 0x6A] ∧
      { encrypted with cmdPort := [[0x0C]], hostMoves := moves }.hung = false) ∧
    { encrypted with cmdPort := [[0x0C]] }.hostMoves = [] ∧
    { encrypted with cmdPort := [[0x0C]], hostMoves := [.take, .reset] }.hostMoves = .take :: [.reset] ∧
    { encrypted with cmdPort := [[0x0C]], hostMoves := [.send [], .take] }.hostMoves = .send [] :: [.take] :=
  ⟨fun _ => ⟨rfl, rfl⟩, rfl, rfl, rfl⟩

/-- IdleBlockKeepsItsState with no frame waiting. -/
theorem witness_idle : State.reset.hostMoves = [] ∧ State.reset.hung = false ∧ State.reset.cmdPort = [] := ⟨rfl, rfl, rfl⟩

/-- HungBlockWaitsForReset, one per move of the host. -/
theorem witness_hung :
    (∀ moves, { seeded .ones 6 with hung := true, hostMoves := moves }.hung = true) ∧
    { seeded .ones 6 with hung := true }.hostMoves = [] ∧
    { seeded .ones 6 with hung := true, hostMoves := [.take, .reset] }.hostMoves = .take :: [.reset] ∧
    { seeded .ones 6 with hung := true, hostMoves := [.send [0x0C], .reset] }.hostMoves = .send [0x0C] :: [.reset] :=
  ⟨fun _ => rfl, rfl, rfl, rfl⟩

/-- ResetEndsWhateverTheBlockDoes: in a hang, with a frame waiting. -/
theorem witness_reset :
    { seeded .ones 6 with hung := true, cmdPort := [[0x0C]], hostMoves := [.reset, .take] }.hostMoves = .reset :: [.take] := rfl

/-- InstancesShareNothing: two blocks with other frames waiting behind the one they accept; two that differ in all that LDSEED
writes; the second of two blocks steps. -/
theorem witness_instances :
    (Accepts { tabled t1 with cmdPort := [[0x0C]] } [0x0C] [] ∧
      Accepts { tabled t1 with cmdPort := [[0x0C], [0x0D]] } [0x0C] [[0x0D]] ∧
      registers { tabled t1 with cmdPort := [[0x0C]] } = registers { tabled t1 with cmdPort := [[0x0C], [0x0D]] } ∧
      step { tabled t1 with cmdPort := [[0x0C]] } = .next { tabled t1 with rspPort := some [0x00, 0x02] }) ∧
    (State.reset.build = (tabled t1).build ∧ State.reset.hung = false ∧ (tabled t1).hung = false) ∧
    stepInstance 1 [State.reset, { seeded .cgen 5 with cmdPort := [[0x0C]] }] =
      some [State.reset, { seeded .cgen 5 with rspPort := some [0x00, 0x01] }] :=
  ⟨⟨⟨rfl, rfl, rfl, rfl⟩, ⟨rfl, rfl, rfl, rfl⟩, rfl, rfl⟩, ⟨rfl, rfl, rfl⟩, rfl⟩

/-- Text (R140): the forms of one to four bytes at the ends of their ranges, by the encoding's table; and overlong forms, a
surrogate, a value above 10FFFF, a tail byte alone, a character cut short. -/
theorem test_validUtf8 :
    ([[], [0x00], [0x7F], [0xC2, 0x80], [0xC3, 0xA9], [0xE0, 0xA0, 0x80], [0xE2, 0x82, 0xAC], [0xED, 0x9F, 0xBF], [0xEE, 0x80, 0x80],
      [0xF0, 0x90, 0x80, 0x80], [0xF0, 0x9F, 0x98, 0x80], [0xF4, 0x8F, 0xBF, 0xBF], [0x48, 0xC3, 0xA9, 0x21]].all validUtf8) = true ∧
    ([[0x80], [0xC1, 0xBF], [0xC3], [0xC3, 0x28], [0xE0, 0x9F, 0xBF], [0xE2, 0x82], [0xED, 0xA0, 0x80], [0xF0, 0x8F, 0xBF, 0xBF],
      [0xF4, 0x90, 0x80, 0x80], [0xF5, 0x80, 0x80, 0x80], [0xFF], [0x48, 0xC3, 0x21]].any validUtf8) = false := by decide

/-- The two options of R146 at the end of the small range. -/
theorem test_offsetRange :
    OffsetRange.full.allows (BitVec.allOnes 128) = true ∧ (OffsetRange.upTo 63).allows 63 = true ∧
    (OffsetRange.upTo 63).allows 64 = false := by decide

/-- A host whose transport text is the bytes themselves, whose marker is six zero bytes and whose KDF ignores the
passphrase. -/
def plainHost (range : OffsetRange) : HostParams where
  marker := Vector.replicate 6 0x00
  marker_ne := by decide
  offsetRange := range
  kdf _ := Seed.zero
  toText := id
  ofText := some
  exact text bytes := by simp

/-- S6: the empty ciphertext, and six X with 32 zero bytes. -/
theorem test_host_checks :
    hostDecrypt (plainHost .full) [] [] State.reset = some (.error .tooShort, State.reset) ∧
    hostDecrypt (plainHost .full) [] (List.replicate 6 0x58 ++ List.replicate 32 0) State.reset =
      some (.error .noMagic, State.reset) := ⟨rfl, rfl⟩

/-- R144 step 7: a payload that is no text, and one that is. -/
theorem test_messageOf : messageOf [0xC3, 0x28] = .error .invalidUtf8 ∧
    messageOf [0xC3, 0xA9] = .ok { bytes := [0xC3, 0xA9], isText := by decide } := ⟨rfl, rfl⟩

/-- A message of three bytes, two of them one character. -/
def message : Text := { bytes := [0x48, 0xC3, 0xA9], isText := by decide }

/-- DecryptUndoesEncrypt: a message, at an offset of either range, on the block of the host that ends with CLR. -/
theorem witness_decrypt : (seeded .cgen 5).hung = false ∧
    (∃ ciphertext t, hostEncrypt (plainHost .full) [] ⟨BitVec.allOnes 128, rfl⟩ message (seeded .cgen 5) = some (ciphertext, t)) ∧
    ∃ ciphertext t, hostEncrypt (plainHost (.upTo 63)) [] ⟨63, rfl⟩ message (seeded .cgen 5) = some (ciphertext, t) := by
  refine ⟨rfl, ?_, ?_⟩
  · have h : (hostEncrypt (plainHost .full) [] ⟨BitVec.allOnes 128, rfl⟩ message (seeded .cgen 5)).isSome = true := by
      decide +kernel
    obtain ⟨⟨ciphertext, t⟩, hx⟩ := Option.isSome_iff_exists.1 h
    exact ⟨ciphertext, t, hx⟩
  · have h : (hostEncrypt (plainHost (.upTo 63)) [] ⟨63, rfl⟩ message (seeded .cgen 5)).isSome = true := by decide +kernel
    obtain ⟨⟨ciphertext, t⟩, hx⟩ := Option.isSome_iff_exists.1 h
    exact ⟨ciphertext, t, hx⟩

end Sys2Proof.Tests
end

/-!
The five registers and the block's invariant (spec/10_state.md): what each command may write, how a command ends, and from
these two facts the access table, the flags and the invariant of every step.
-/

section

namespace Sys2Proof.Machine

open Sys2Proof.Safety

/-! ### What a command may write -/

/-- The five registers hold the same; the ports and the hang may differ. -/
structure SameRegisters (s t : Block) : Prop where
  seed       : t.seed = s.seed
  seedValid  : t.seedValid = s.seedValid
  pos        : t.pos = s.pos
  table      : t.table = s.table
  tableValid : t.tableValid = s.tableValid

/-- From `s` to `t` TABLE and its flag are kept or, only where `tabled` holds, are a new valid permutation (R94). -/
def TableStep (tabled : Prop) (s t : Block) : Prop :=
  (t.table = s.table ∧ t.tableValid = s.tableValid) ∨ (tabled ∧ isPerm t.table = true ∧ t.tableValid = true)

/-- What using the keystream may change: POS where there is a seed, and the table where `tabled` holds. -/
structure Advanced (tabled : Prop) (s t : Block) : Prop where
  seed      : t.seed = s.seed
  seedValid : t.seedValid = s.seedValid
  pos       : t.pos = s.pos ∨ s.seedValid = true
  table     : TableStep tabled s t

/-- When a command that gets to its effect may set `TABLE_VALID` (R18). -/
def SetsTable (i : Instr) : Prop :=
  match i with
  | .gentab => True
  | .ldtab k => isPerm k = true
  | .encr _ d => d ≠ []
  | .decr _ d => 2 ≤ d.length
  | _ => False

/-- The commands that read the keystream, and so can hang (R31, R76). -/
def ReadsKeystream (i : Instr) : Prop :=
  match i with
  | .draw _ | .gentab | .encr _ _ | .decr _ _ => True
  | _ => False

theorem setsTable_cases {i : Instr} (h : SetsTable i) :
    i = .gentab ∨ (∃ k, i = .ldtab k ∧ isPerm k = true) ∨ (∃ p d, i = .encr p d ∧ d ≠ []) ∨
      ∃ p d, i = .decr p d ∧ 2 ≤ d.length := by
  cases i with
  | gentab => exact .inl rfl
  | ldtab k => exact .inr (.inl ⟨k, rfl, h⟩)
  | encr p d => exact .inr (.inr (.inl ⟨p, d, rfl, h⟩))
  | decr p d => exact .inr (.inr (.inr ⟨p, d, rfl, h⟩))
  | _ => exact h.elim

/-- What command `i` may make of the registers of `s`, errors and hangs included: the write columns of R15. -/
def MayWrite (i : Instr) (s t : Block) : Prop :=
  match i with
  | .ldseed k => SameRegisters (s.loadSeed k) t
  | .clr => SameRegisters s.clearRegisters t
  | .ldtab k => SameRegisters s t ∨ (isPerm k = true ∧ SameRegisters (s.loadTable k) t)
  | .seek _ | .draw _ | .gentab | .encr _ _ | .decr _ _ => Advanced (SetsTable i) s t
  | .permw _ | .unpermw _ | .enc _ | .dec _ | .rdstat => SameRegisters s t

theorem SameRegisters.advanced {s t : Block} (h : SameRegisters s t) (tabled : Prop) : Advanced tabled s t :=
  ⟨h.seed, h.seedValid, .inl h.pos, .inl ⟨h.table, h.tableValid⟩⟩

theorem mayWrite_of_advanced {i : Instr} {s t : Block} (hi : ReadsKeystream i) (h : Advanced (SetsTable i) s t) :
    MayWrite i s t := by
  cases i with
  | draw _ | gentab | encr _ _ | decr _ _ => exact h
  | _ => exact hi.elim

/-- The seed after a command: loaded by LDSEED, wiped by CLR, else kept, and then POS moves only under a seed. -/
theorem mayWrite_seed {i : Instr} {s t : Block} (h : MayWrite i s t) :
    ((∃ k, i = .ldseed k) ∧ t.seedValid = true) ∨
    (i = .clr ∧ t.seedValid = false ∧ t.seed = Seed.zero ∧ t.pos = 0) ∨
    (t.seed = s.seed ∧ t.seedValid = s.seedValid ∧ (t.pos = s.pos ∨ s.seedValid = true)) := by
  cases i with
  | ldseed k => exact .inl ⟨⟨k, rfl⟩, h.seedValid⟩
  | clr => exact .inr (.inl ⟨rfl, h.seedValid, h.seed, h.pos⟩)
  | ldtab k =>
    obtain h | ⟨_, h⟩ := h
    · exact .inr (.inr ⟨h.seed, h.seedValid, .inl h.pos⟩)
    · exact .inr (.inr ⟨h.seed, h.seedValid, .inl h.pos⟩)
  | seek _ | draw _ | gentab | encr _ _ | decr _ _ => exact .inr (.inr ⟨h.seed, h.seedValid, h.pos⟩)
  | permw _ | unpermw _ | enc _ | dec _ | rdstat => exact .inr (.inr ⟨h.seed, h.seedValid, .inl h.pos⟩)

/-- The table after a command: wiped by CLR or LDSEED, else kept or a new valid permutation. -/
theorem mayWrite_table {i : Instr} {s t : Block} (h : MayWrite i s t) :
    ((i = .clr ∨ ∃ k, i = .ldseed k) ∧ t.table = Table.zero ∧ t.tableValid = false) ∨ TableStep (SetsTable i) s t := by
  cases i with
  | ldseed k => exact .inl ⟨.inr ⟨k, rfl⟩, h.table, h.tableValid⟩
  | clr => exact .inl ⟨.inl rfl, h.table, h.tableValid⟩
  | ldtab k =>
    obtain h | ⟨hk, h⟩ := h
    · exact .inr (.inl ⟨h.table, h.tableValid⟩)
    · exact .inr (.inr ⟨hk, (congrArg isPerm h.table).trans hk, h.tableValid⟩)
  | seek _ | draw _ | gentab | encr _ _ | decr _ _ => exact .inr h.table
  | permw _ | unpermw _ | enc _ | dec _ | rdstat => exact .inr (.inl ⟨h.table, h.tableValid⟩)

/-! ### Runs of new tables -/

/-- A rearrangement of 0..15, as a table, is a permutation (R93). -/
theorem isPerm_tableOfList {l : List Nibble} (h : l.Perm fullPool) : isPerm (tableOfList l) = true := by
  unfold isPerm
  rw [toList_tableOfList l h.length_eq, List.all_eq_true]
  intro v hv
  rw [h.count_eq v]
  revert v
  decide

/-- Generate makes permutations (R94). -/
theorem isPerm_of_generate {g : Gen} {seed : Seed} {p q : Position} {t : Table} (h : generate g seed p = .done t q) :
    isPerm t = true := by
  obtain ⟨l, hl, rfl⟩ := (generate_eq_done_iff g seed p q t).1 h
  exact isPerm_tableOfList (generateRounds_perm g seed 16 fullPool l p q rfl hl)

theorem TableStep.refl (tabled : Prop) (s : Block) : TableStep tabled s s := .inl ⟨rfl, rfl⟩

theorem tableStep_setPos (tabled : Prop) (s : Block) (p : Position) : TableStep tabled s (s.setPos p) := .inl ⟨rfl, rfl⟩

theorem TableStep.trans {tabled : Prop} {s t u : Block} (h : TableStep tabled s t) (k : TableStep tabled t u) :
    TableStep tabled s u := by
  obtain ⟨hk, hkv⟩ | k := k
  · unfold TableStep
    rwa [hk, hkv]
  · exact .inr k

theorem TableStep.mono {a b : Prop} {s t : Block} (hab : a → b) (h : TableStep a s t) : TableStep b s t :=
  h.imp_right fun ⟨ha, ht⟩ => ⟨hab ha, ht⟩

/-- A part of a command, run from `s`, that leaves a table only as `TableStep` allows and fails only with an error the
block sends. -/
structure TableRun {α : Type} (tabled : Prop) (s : Block) (r : Ran α) : Prop where
  table : TableStep tabled s r.state
  legal : ∀ e t, r = .failed e t → legalResponse [e.code] = true

theorem tableRun_done {α : Type} {tabled : Prop} {s t : Block} (a : α) (h : TableStep tabled s t) :
    TableRun tabled s (.done a t) := ⟨h, nofun⟩

theorem tableRun_hung {α : Type} {tabled : Prop} {s t : Block} (h : TableStep tabled s t) :
    TableRun tabled s (.hung t : Ran α) := ⟨h, nofun⟩

theorem tableRun_failed {α : Type} {tabled : Prop} {s t : Block} {e : ErrorKind} (he : legalResponse [e.code] = true)
    (h : TableStep tabled s t) : TableRun tabled s (.failed e t : Ran α) :=
  ⟨h, fun _ _ hr => by cases hr; exact he⟩

/-- A run goes on where its first part ended. -/
theorem tableRun_bind {α β : Type} {tabled : Prop} {s : Block} {r : Ran α} {k : α → Block → Ran β} (h : TableRun tabled s r)
    (hk : ∀ a t, TableStep tabled s t → TableRun tabled s (k a t)) : TableRun tabled s (r.bind k) := by
  cases r with
  | done a t => exact hk a t h.table
  | failed e t => exact tableRun_failed (h.legal e t rfl) h.table
  | hung t => exact tableRun_hung h.table

theorem TableRun.after {α : Type} {a b : Prop} {s t : Block} {r : Ran α} (hab : a → b) (hs : TableStep b s t)
    (h : TableRun a t r) : TableRun b s r :=
  ⟨hs.trans (h.table.mono hab), h.legal⟩

theorem tableRun_drawInto (tabled : Prop) (b : Build) (n : Nat) (s : Block) : TableRun tabled s (drawInto b n s) := by
  obtain ⟨v, p, _, h⟩ | ⟨_, h⟩ := drawInto_cases b n s <;> rw [h]
  · exact tableRun_done v (tableStep_setPos _ s p)
  · exact tableRun_hung (.refl _ s)

theorem tableRun_newTable {tabled : Prop} (ht : tabled) (b : Build) (s : Block) : TableRun tabled s (newTable b s) := by
  obtain ⟨t, p, hg, h⟩ | ⟨p, _, h⟩ := newTable_cases b s <;> rw [h]
  · exact tableRun_done t (.inr ⟨ht, isPerm_of_generate hg, rfl⟩)
  · exact tableRun_hung (tableStep_setPos _ s p)

theorem tableRun_encryptUnits (b : Build) (d : List Byte) (s : Block) : TableRun (d ≠ []) s (encryptUnits b d s) := by
  induction d generalizing s with
  | nil => exact tableRun_done _ (.refl _ s)
  | cons x rest ih =>
    have hx : x :: rest ≠ [] := List.cons_ne_nil x rest
    exact tableRun_bind (tableRun_newTable hx b s) fun t s1 h1 =>
      tableRun_bind ((ih s1).after (fun _ => hx) h1) fun _ _ h2 => tableRun_done _ h2

theorem tableRun_decryptUnits (b : Build) (d : List Byte) (s : Block) :
    TableRun (2 ≤ d.length) s (decryptUnits b d s) := by
  induction d, s using decryptUnits.induct with
  | case1 s => exact tableRun_done _ (.refl _ s)
  | case2 s x => exact tableRun_failed rfl (.refl _ s)
  | case3 s hi lo rest ih =>
    have hd : 2 ≤ (hi :: lo :: rest).length := by simp
    simp only [decryptUnits]
    refine tableRun_bind (tableRun_newTable hd b s) fun t s1 h1 => ?_
    cases decodeUnit t hi lo with
    | none => exact tableRun_failed rfl h1
    | some x => exact tableRun_bind ((ih s1).after (fun _ => hd) h1) fun _ _ h2 => tableRun_done _ h2

/-! ### How a command ends -/

/-- Command `i` takes the block `s` to `t`: it writes what it may, and sends a legal response or, reading the keystream of
a seed, hangs. -/
structure CommandEnd (i : Instr) (s t : Block) : Prop where
  writes : MayWrite i s t
  ending : (t.hung = s.hung ∧ ∃ r, t.rspPort = some r ∧ legalResponse r = true) ∨
    (ReadsKeystream i ∧ t.seedValid = true ∧ t.hung = true ∧ t.rspPort = s.rspPort)

/-- Where the outcome `o` of command `i` on `s` is a next state, the command ended there. -/
def EndsAs (i : Instr) (s : Block) (o : Host.Outcome Block Fault Refusal) : Prop :=
  ∀ t, o = .next t → CommandEnd i s t

theorem endsAs_respondOk {i : Instr} {s u : Block} (payload : List Byte) (hu : u.hung = s.hung)
    (hw : ∀ t, SameRegisters u t → MayWrite i s t) : EndsAs i s (respondOk payload u) := by
  rintro _ ⟨⟩
  exact ⟨hw _ ⟨rfl, rfl, rfl, rfl, rfl⟩, .inl ⟨hu, _, rfl, rfl⟩⟩

theorem endsAs_raise {i : Instr} {s : Block} {e : ErrorKind} (he : legalResponse [e.code] = true)
    (hw : ∀ t, SameRegisters s t → MayWrite i s t) : EndsAs i s (raise e s) := by
  rintro _ ⟨⟩
  exact ⟨hw _ ⟨rfl, rfl, rfl, rfl, rfl⟩, .inl ⟨rfl, _, rfl, he⟩⟩

theorem endsAs_withTable {i : Instr} {s : Block} {k : Table → Host.Outcome Block Fault Refusal}
    (hw : ∀ t, SameRegisters s t → MayWrite i s t) (hk : EndsAs i s (k s.table)) : EndsAs i s (withTable s k) := by
  obtain ⟨_, h⟩ | ⟨_, _, h⟩ | ⟨_, _, h⟩ := withTable_cases s k <;> rw [h]
  · exact endsAs_raise rfl hw
  · exact hk
  · exact nofun

/-- The end of a command that reads the keystream of a seed. -/
theorem endsAs_finish {i : Instr} {s : Block} {r : Ran (List Byte)} (hi : ReadsKeystream i) (hs : s.seedValid = true)
    (he : SameElsewhere s r.state) (ht : TableRun (SetsTable i) s r) : EndsAs i s (finish r) := by
  have hw (rsp : Option Frame) (hung : Bool) : MayWrite i s { r.state with rspPort := rsp, hung := hung } :=
    mayWrite_of_advanced hi ⟨he.seed, he.seedValid, .inr hs, ht.table⟩
  cases r with
  | done payload u =>
    rintro _ ⟨⟩
    exact ⟨hw _ _, .inl ⟨he.hung, _, rfl, rfl⟩⟩
  | failed e u =>
    rintro _ ⟨⟩
    exact ⟨hw _ _, .inl ⟨he.hung, _, rfl, ht.legal e u rfl⟩⟩
  | hung u =>
    rintro _ ⟨⟩
    exact ⟨hw _ _, .inr ⟨hi, he.seedValid.trans hs, rfl, he.rspPort⟩⟩

/-- NoSeed without a seed (R175), else the run of a command that reads the keystream. -/
theorem endsAs_ifSeeded {i : Instr} {s : Block} {r : Ran (List Byte)} (hi : ReadsKeystream i)
    (he : SameElsewhere s r.state) (ht : TableRun (SetsTable i) s r) :
    EndsAs i s (if s.seedValid = false then raise .noSeed s else finish r) := by
  cases hs : s.seedValid with
  | false => exact endsAs_raise rfl fun _ h => mayWrite_of_advanced hi (h.advanced _)
  | true => exact endsAs_finish hi hs he ht

/-- Every command is an operation on the block whose next states are its ends. -/
theorem exec_endsAs (i : Instr) (s : State) :
    ∃ f, exec i s = onBlock s f ∧ EndsAs i s.toBlock (f s.build s.toBlock) := by
  cases i with
  | ldseed k => exact ⟨_, exec_ldseed k s, endsAs_respondOk [] rfl fun _ h => h⟩
  | clr => exact ⟨_, exec_clr s, endsAs_respondOk [] rfl fun _ h => h⟩
  | rdstat => exact ⟨_, exec_rdstat s, endsAs_respondOk _ rfl fun _ h => h⟩
  | seek p =>
    refine ⟨_, exec_seek p s, ?_⟩
    split
    · exact endsAs_raise rfl fun _ h => h.advanced _
    · next hs => exact endsAs_respondOk [] rfl fun _ h =>
        ⟨h.seed, h.seedValid, .inr (by simpa using hs), .inl ⟨h.table, h.tableValid⟩⟩
  | draw n =>
    refine ⟨_, exec_draw n s, ?_⟩
    split
    · exact endsAs_raise rfl fun _ h => h.advanced _
    · exact endsAs_ifSeeded trivial (sameElsewhere_bind _ _ _ (sameElsewhere_drawInto _ _ _) fun _ _ h => h)
        (tableRun_bind (tableRun_drawInto _ _ _ _) fun _ _ h => tableRun_done _ h)
  | gentab =>
    exact ⟨_, exec_gentab s, endsAs_ifSeeded trivial
      (sameElsewhere_bind _ _ _ (sameElsewhere_newTable _ _) fun _ _ h => h)
      (tableRun_bind (tableRun_newTable trivial _ _) fun _ _ h => tableRun_done _ h)⟩
  | ldtab k =>
    refine ⟨_, exec_ldtab k s, ?_⟩
    split
    · exact endsAs_raise rfl fun _ => .inl
    · next hk => exact endsAs_respondOk [] rfl fun _ h => .inr ⟨by simpa using hk, h⟩
  | encr p d =>
    exact ⟨_, exec_encr p d s, endsAs_ifSeeded trivial
      ((sameElsewhere_setPos _ p).trans (sameElsewhere_encryptUnits _ d _))
      ((tableRun_encryptUnits s.build d (s.setPos p)).after id (tableStep_setPos _ s.toBlock p))⟩
  | decr p d =>
    refine ⟨_, exec_decr p d s, ?_⟩
    simp only [decryptRaw]
    split
    · exact endsAs_raise rfl fun _ h => h.advanced _
    · exact endsAs_ifSeeded trivial ((sameElsewhere_setPos _ p).trans (sameElsewhere_decryptUnits _ d _))
        ((tableRun_decryptUnits s.build d (s.setPos p)).after id (tableStep_setPos _ s.toBlock p))
  | dec c =>
    refine ⟨_, exec_dec c s, endsAs_withTable (fun _ h => h) ?_⟩
    split
    · exact endsAs_raise rfl fun _ h => h
    · exact endsAs_respondOk _ rfl fun _ h => h
  | permw u => exact ⟨_, exec_permw u s, endsAs_withTable (fun _ h => h) (endsAs_respondOk _ rfl fun _ h => h)⟩
  | unpermw w => exact ⟨_, exec_unpermw w s, endsAs_withTable (fun _ h => h) (endsAs_respondOk _ rfl fun _ h => h)⟩
  | enc b => exact ⟨_, exec_enc b s, endsAs_withTable (fun _ h => h) (endsAs_respondOk _ rfl fun _ h => h)⟩

/-- Every next state of a command is one of its ends. -/
theorem exec_commandEnd {i : Instr} {s t : State} (h : exec i s = .next t) : CommandEnd i s.toBlock t.toBlock := by
  obtain ⟨f, hf, hend⟩ := exec_endsAs i s
  rw [hf, onBlock_eq] at h
  obtain ⟨u, hu, rfl⟩ := mapNext_eq_next h
  exact hend u hu

/-- A command's next state keeps the waiting frames, the build and the host's moves. -/
theorem exec_sameAround {i : Instr} {s t : State} (h : exec i s = .next t) : SameAround s t := by
  obtain ⟨u, hu, ha⟩ | ⟨_, _, hr⟩ := exec_endsWell i s
  · cases hu.symm.trans h
    exact ha
  · cases hr.symm.trans h

/-- A command that does not read the keystream does not hang. -/
theorem CommandEnd.hung_eq {i : Instr} {s t : Block} (h : CommandEnd i s t) (hi : ¬ ReadsKeystream i) : t.hung = s.hung := by
  obtain ⟨hh, _⟩ | ⟨hr, _⟩ := h.ending
  · exact hh
  · exact absurd hr hi

theorem SameRegisters.registers_eq {s t : State} (h : SameRegisters s.toBlock t.toBlock) : registers t = registers s := by
  simp only [registers, h.seed, h.seedValid, h.pos, h.table, h.tableValid]

theorem TableStep.kept {tabled : Prop} {s t : Block} (h : TableStep tabled s t) (hn : ¬ tabled) :
    t.table = s.table ∧ t.tableValid = s.tableValid :=
  h.resolve_right fun hr => hn hr.1

/-! ### The invariant -/

/-- A command on an idle block keeps the invariant. -/
theorem exec_keeps_blockInv {i : Instr} {s t : State} (hs : BlockInv s) (hh : s.hung = false) (hp : s.rspPort = none)
    (h : exec i s = .next t) : BlockInv t := by
  obtain ⟨hw, hend⟩ := exec_commandEnd h
  have htable : (t.tableValid = true → isPerm t.table = true) ∧ (t.tableValid = false → t.table = Table.zero) := by
    obtain ⟨_, ht, hv⟩ | ⟨ht, hv⟩ | ⟨_, ht, hv⟩ := mayWrite_table hw
    · simp [ht, hv]
    · rw [ht, hv]
      exact ⟨hs.tableIsPerm, hs.tableIsZero⟩
    · simp [ht, hv]
  have hseed : t.seedValid = false → t.seed = Seed.zero ∧ t.pos = 0 := by
    intro hv
    obtain ⟨_, hv'⟩ | ⟨_, _, hk, hpos⟩ | ⟨hk, hv', hpos⟩ := mayWrite_seed hw
    · simp [hv] at hv'
    · exact ⟨hk, hpos⟩
    · have hsv : s.seedValid = false := hv'.symm.trans hv
      obtain ⟨hz, hp0⟩ := hs.seedIsZero hsv
      exact ⟨hk.trans hz, (hpos.resolve_right (by simp [hsv])).trans hp0⟩
  have hhung : t.hung = true → t.seedValid = true ∧ t.rspPort = none := by
    intro hth
    obtain ⟨he, _⟩ | ⟨_, hv, _, hr⟩ := hend
    · simp [he, hh] at hth
    · exact ⟨hv, hr.trans hp⟩
  have hrsp : ∀ r, t.rspPort = some r → legalResponse r = true := by
    intro r hr
    obtain ⟨_, f, hf, hl⟩ | ⟨_, _, _, hn⟩ := hend
    · cases hf.symm.trans hr
      exact hl
    · simp [hn, hp] at hr
  exact ⟨htable.1, htable.2, hseed, hhung, hrsp⟩

/-- Spinning an endless draw, which has a seed, keeps the invariant. -/
theorem blockInv_spin {s : State} (hs : BlockInv s) (hh : s.hung = true) : BlockInv { s with toBlock := spin s.toBlock } :=
  have hv : s.seedValid = true := (hs.hungIsSeeded hh).1
  ⟨hs.tableIsPerm, hs.tableIsZero, fun h => absurd (hv.symm.trans h) (by decide), hs.hungIsSeeded, hs.rspIsLegal⟩

/-- The block after reset meets the invariant, whatever the build and the host's moves. -/
theorem blockInv_reset (b : Build) (moves : List HostMove) :
    BlockInv { toBlock := Block.reset, build := b, hostMoves := moves } :=
  ⟨nofun, fun _ => rfl, fun _ => ⟨rfl, rfl⟩, nofun, nofun⟩

/-- A move of the host keeps the invariant. -/
theorem blockInv_afterMove {s : State} {t : Block} (ht : BlockInv { s with toBlock := t }) : BlockInv (afterMove s t) := by
  unfold afterMove
  obtain ⟨hperm, hzero, hseed, hhung, hrsp⟩ := ht
  rcases s.hostMoves with _ | ⟨f | _ | _, rest⟩
  · exact ⟨hperm, hzero, hseed, hhung, hrsp⟩
  · exact ⟨hperm, hzero, hseed, hhung, hrsp⟩
  · exact ⟨hperm, hzero, hseed, fun h => ⟨(hhung h).1, rfl⟩, nofun⟩
  · exact blockInv_reset s.build rest

theorem afterMove_of_noMove {s : State} (h : s.hostMoves = []) : afterMove s s.toBlock = s := by
  obtain ⟨b, build, moves⟩ := s
  cases h
  rfl

/-- Running an accepted frame keeps the invariant. -/
theorem blockInv_runFrame {s t : State} (f : Frame) (hs : BlockInv s) (hh : s.hung = false) (hp : s.rspPort = none)
    (h : onBlock s (fun b u => runFrame b f u) = .next t) : BlockInv t := by
  obtain ⟨_, he⟩ | ⟨i, _, he⟩ := runFrame_cases f s <;> rw [he] at h
  · cases h
    refine ⟨hs.tableIsPerm, hs.tableIsZero, hs.seedIsZero, fun hc => absurd (hh.symm.trans hc) (by decide), ?_⟩
    rintro r ⟨⟩
    rfl
  · exact exec_keeps_blockInv hs hh hp h

end Sys2Proof.Machine

namespace Sys2Proof.StateObligations

open Sys2Proof.Machine Sys2Proof.Safety

/-! ### The statements -/

/-- Settles O48: a step is a move of the host, or the run of an accepted frame on an idle block. -/
theorem stepKeepsTheInvariant : Obligations.StepKeepsTheInvariant := by
  intro s t hs h
  obtain ⟨_, hstep⟩ | ⟨f, rest, ⟨_, hh, hp, _⟩, hstep⟩ | ⟨_, _, hstep⟩ := step_cases s <;> rw [hstep] at h
  · cases h
    exact blockInv_afterMove hs
  · have hrest : BlockInv { s with cmdPort := rest } :=
      ⟨hs.tableIsPerm, hs.tableIsZero, hs.seedIsZero, hs.hungIsSeeded, hs.rspIsLegal⟩
    exact blockInv_runFrame f hrest hh hp h
  · cases h
    refine blockInv_afterMove ?_
    split
    · next hh => exact blockInv_spin hs hh
    · exact hs

/-- Settles O38, from what a command may make of the seed and of the table. -/
theorem flagsChangeOnlyByTheirCommands : Obligations.FlagsChangeOnlyByTheirCommands := by
  intro i s t h
  have hw := (exec_commandEnd h).writes
  refine ⟨fun hs ht => ?_, fun hs ht => ?_, fun hs ht => ?_, fun hs ht => ?_⟩
  · obtain ⟨hi, _⟩ | ⟨_, hv, _⟩ | ⟨_, hv, _⟩ := mayWrite_seed hw
    · exact hi
    · simp [hv] at ht
    · simp [hv, hs] at ht
  · obtain ⟨_, hv⟩ | ⟨hi, _⟩ | ⟨_, hv, _⟩ := mayWrite_seed hw
    · simp [hv] at ht
    · exact hi
    · simp [hv, hs] at ht
  · obtain ⟨_, _, hv⟩ | ⟨_, hv⟩ | ⟨hi, _⟩ := mayWrite_table hw
    · simp [hv] at ht
    · simp [hv, hs] at ht
    · exact setsTable_cases hi
  · obtain ⟨hi, _⟩ | ⟨_, hv⟩ | ⟨_, _, hv⟩ := mayWrite_table hw
    · exact hi
    · simp [hv, hs] at ht
    · simp [hv] at ht

/-- Settles O39, from what each command may write and how it ends. -/
theorem commandsWriteOnlyTheirRegisters : Obligations.CommandsWriteOnlyTheirRegisters := by
  intro i s t h
  obtain ⟨hcmd, hbuild, hmoves⟩ := exec_sameAround h
  refine ⟨hcmd, hbuild, hmoves, ?_⟩
  have hend := exec_commandEnd h
  have hw := hend.writes
  cases i with
  | ldseed _ | clr => exact hend.hung_eq id
  | seek _ =>
    obtain ⟨ht, hv⟩ := hw.table.kept id
    exact ⟨hend.hung_eq id, hw.seed, hw.seedValid, ht, hv⟩
  | draw _ =>
    obtain ⟨ht, hv⟩ := hw.table.kept id
    exact ⟨hw.seed, hw.seedValid, ht, hv⟩
  | gentab | encr _ _ | decr _ _ => exact ⟨hw.seed, hw.seedValid⟩
  | ldtab _ =>
    obtain hw | ⟨_, hw⟩ := hw
    · exact ⟨hend.hung_eq id, hw.seed, hw.seedValid, hw.pos⟩
    · exact ⟨hend.hung_eq id, hw.seed, hw.seedValid, hw.pos⟩
  | permw _ | unpermw _ | enc _ | dec _ | rdstat => exact ⟨hend.hung_eq id, hw.registers_eq⟩

/-- Settles O46. -/
theorem resetValues : Obligations.ResetValues :=
  ⟨reset_seed, reset_seedValid, reset_pos, reset_table, reset_tableValid⟩

/-- Settles O47. -/
theorem resetMeetsTheInvariant : Obligations.ResetMeetsTheInvariant :=
  blockInv_reset Config.build []

/-- Settles O58: such a step is the move of a host that makes none. -/
theorem idleBlockKeepsItsState : Obligations.IdleBlockKeepsItsState := by
  intro s hm hh hidle
  obtain ⟨hr, _⟩ | ⟨f, rest, ⟨_, _, hp, hc⟩, _⟩ | ⟨_, _, hstep⟩ := step_cases s
  · simp [hm, resetAsserted] at hr
  · simp [hp, hc] at hidle
  · rw [hstep, hh]
    exact congrArg _ (afterMove_of_noMove hm)

end Sys2Proof.StateObligations

end

/-!
The keystream space and the order of commands (spec/20_memory.md): which commands are blind to the generator, and what a step
is where a frame is accepted and where an untaken response holds the block.
-/

section

namespace Sys2Proof.Machine

open Sys2Proof.Safety

/-! ### Commands blind to the build -/

/-- A command that does not read the keystream is a function of the block alone: neither the generator nor `MAX_DATA` enters
its meaning (R31, R23). -/
theorem exec_eq_of_not_readsKeystream {i : Instr} (hi : ¬ ReadsKeystream i) :
    ∃ f : Block → Host.Outcome Block Fault Refusal, ∀ s, exec i s = onBlock s fun _ t => f t := by
  cases i with
  | draw _ | gentab | encr _ _ | decr _ _ => exact absurd trivial hi
  | ldseed k => exact ⟨_, exec_ldseed k⟩
  | seek p => exact ⟨_, exec_seek p⟩
  | ldtab t => exact ⟨_, exec_ldtab t⟩
  | permw u => exact ⟨_, exec_permw u⟩
  | unpermw w => exact ⟨_, exec_unpermw w⟩
  | enc b => exact ⟨_, exec_enc b⟩
  | dec c => exact ⟨_, exec_dec c⟩
  | rdstat => exact ⟨_, exec_rdstat⟩
  | clr => exact ⟨_, exec_clr⟩

/-- Where a command that does not read the keystream has a next state, on a block of another build it has the same one, of
that build. -/
theorem exec_build_of_not_readsKeystream {i : Instr} {s t : State} (hi : ¬ ReadsKeystream i) (b : Build)
    (h : exec i s = .next t) : exec i { s with build := b } = .next { t with build := b } := by
  obtain ⟨f, hf⟩ := exec_eq_of_not_readsKeystream hi
  rw [hf, onBlock_eq] at h
  obtain ⟨u, hu, rfl⟩ := mapNext_eq_next h
  rw [hf, onBlock_eq, hu, mapNext_next]

/-! ### What a step is -/

/-- Where a frame is accepted, a step runs it, off the command port (R41, R42). -/
theorem step_of_accepts {s : State} {f : Frame} {rest : List Frame} (h : Accepts s f rest) :
    step s = onBlock { s with cmdPort := rest } fun b t => runFrame b f t := by
  have ⟨hnr, _, _, hc⟩ := h
  obtain ⟨hr, _⟩ | ⟨f', rest', ⟨_, _, _, hc'⟩, hstep⟩ | ⟨_, hno, _⟩ := step_cases s
  · exact absurd (hnr.symm.trans hr) (by decide)
  · obtain ⟨rfl, rfl⟩ := List.cons.inj (hc'.symm.trans hc)
    exact hstep
  · exact absurd h (hno f rest)

/-- Where no draw is endless and no frame is accepted, a step is the host's next move and nothing else (R207). -/
theorem step_of_acceptsNothing {s : State} (hh : s.hung = false) (hno : ∀ f rest, ¬ Accepts s f rest) :
    step s = .next (afterMove s s.toBlock) := by
  obtain ⟨_, hstep⟩ | ⟨f, rest, ha, _⟩ | ⟨_, _, hstep⟩ := step_cases s
  · exact hstep
  · exact absurd ha (hno f rest)
  · simpa [hh] using hstep

/-- A response not taken keeps every frame from being accepted (R42). -/
theorem not_accepts_of_rspPort {s : State} {r : Frame} (hp : s.rspPort = some r) (f : Frame) (rest : List Frame) :
    ¬ Accepts s f rest := by
  rintro ⟨_, _, hn, _⟩
  exact absurd (hp.symm.trans hn) (by simp)

/-- The host takes the response: the port is empty, and nothing else changes. -/
theorem afterMove_of_take {s : State} {rest : List HostMove} (h : s.hostMoves = .take :: rest) :
    afterMove s s.toBlock = { s with rspPort := none, hostMoves := rest } := by
  simp only [afterMove, h, hostActs]

/-- The host sends a frame: it waits behind the others on the command port, and nothing else changes. -/
theorem afterMove_of_send {s : State} {f : Frame} {rest : List HostMove} (h : s.hostMoves = .send f :: rest) :
    afterMove s s.toBlock = { s with cmdPort := s.cmdPort ++ [f], hostMoves := rest } := by
  simp only [afterMove, h, hostActs]

end Sys2Proof.Machine

namespace Sys2Proof.MemoryObligations

open Sys2Proof.Machine Sys2Proof.Safety

/-! ### The statements -/

/-- Settles O40: every other command is a function of the block alone, and the generator is no part of the block. -/
theorem otherCommandsNeverReadTheKeystream : Obligations.OtherCommandsNeverReadTheKeystream := by
  intro i s t g hdraw hgentab hencr hdecr h
  have hi : ¬ ReadsKeystream i := by
    cases i with
    | draw n => exact absurd rfl (hdraw n)
    | gentab => exact absurd rfl hgentab
    | encr p d => exact absurd rfl (hencr p d)
    | decr p d => exact absurd rfl (hdecr p d)
    | _ => exact id
  exact exec_build_of_not_readsKeystream hi _ h

/-- Settles O50: the step runs the frame, and the frame is the command. -/
theorem stepRunsTheAcceptedCommand : Obligations.StepRunsTheAcceptedCommand := by
  intro s f rest i ha hi
  rw [step_of_accepts ha]
  obtain ⟨⟨e, he⟩, _⟩ | ⟨j, hj, hrun⟩ := runFrame_cases f { s with cmdPort := rest }
  · cases hi.symm.trans he
  · cases hi.symm.trans hj
    exact hrun

/-- Settles O54: no frame is accepted, so a step is the host's move. -/
theorem untakenResponseHoldsTheBlock : Obligations.UntakenResponseHoldsTheBlock := by
  intro s r f rest hp hh
  rw [step_of_acceptsNothing hh (not_accepts_of_rspPort hp)]
  exact ⟨fun h => congrArg _ (afterMove_of_noMove h), fun h => congrArg _ (afterMove_of_take h),
    fun h => congrArg _ (afterMove_of_send h)⟩

end Sys2Proof.MemoryObligations

end

/-!
The encoding of commands (spec/30_encoding.md): each operand format's reader is the inverse of its writer, so a frame decodes
to a command exactly where it is the frame of that command; and ENCR and DECR against the commands they stand for (R63).
-/

section

namespace Sys2Proof

open Sys2Proof.Laws.FrameShape

/-! ### Big-endian numbers -/

/-- `from_be` is the base-256 value of the bytes, the last byte being the least digit. -/
theorem fromBE_eq_ofDigits (s : List Byte) : fromBE s = Nat.ofDigits 256 (s.reverse.map BitVec.toNat) := by
  simp [fromBE, Nat.ofDigits_eq_foldr, List.foldl_map, Nat.mul_comm, Nat.add_comm]

theorem fromBE_cons (b : Byte) (s : List Byte) : fromBE (b :: s) = b.toNat * 256 ^ s.length + fromBE s := by
  simp [fromBE_eq_ofDigits, Nat.ofDigits_append, Nat.add_comm, Nat.mul_comm]

theorem digits_lt (s : List Byte) : ∀ x ∈ s.reverse.map BitVec.toNat, x < 256 := by
  simpa using fun b _ => b.isLt

theorem fromBE_lt (s : List Byte) : fromBE s < 256 ^ s.length := by
  simpa [fromBE_eq_ofDigits] using Nat.ofDigits_lt_base_pow_length (by decide) (digits_lt s)

/-- A byte sequence of known length is determined by its number. -/
theorem fromBE_injective {s t : List Byte} (hl : s.length = t.length) (h : fromBE s = fromBE t) : s = t := by
  rw [fromBE_eq_ofDigits, fromBE_eq_ofDigits] at h
  have hdigits := Nat.ofDigits_inj_of_len_eq (by decide) (by simpa using hl) (digits_lt s) (digits_lt t) h
  exact List.reverse_injective (List.map_injective_iff.2 (fun _ _ => BitVec.eq_of_toNat_eq) hdigits)

/-- Reading back n bytes of a number gives it modulo 2^(8n) (R7). -/
theorem fromBE_beBytes (n v : Nat) : fromBE (beBytes n v) = v % 256 ^ n := by
  induction n with
  | zero => simp [beBytes, fromBE, Nat.mod_one]
  | succ k ih =>
    rw [beBytes, fromBE_cons, ih, length_beBytes, Nat.mod_pow_succ, BitVec.toNat_ofNat]
    ring

/-- The bytes of a sequence's number are the sequence. -/
theorem beBytes_fromBE (s : List Byte) : beBytes s.length (fromBE s) = s :=
  fromBE_injective (length_beBytes _ _) ((fromBE_beBytes _ _).trans (Nat.mod_eq_of_lt (fromBE_lt s)))

/-- `k` bytes read as the number `v` exactly where they are the bytes of `v`. -/
theorem ofNat_fromBE_eq_iff (k : Nat) (ops : List Byte) (v : BitVec (8 * k)) :
    (ops.length = k ∧ BitVec.ofNat (8 * k) (fromBE ops) = v) ↔ ops = beBytes k v.toNat := by
  have hpow : 2 ^ (8 * k) = 256 ^ k := Nat.pow_mul 2 8 k
  constructor
  · rintro ⟨rfl, rfl⟩
    rw [BitVec.toNat_ofNat, hpow, Nat.mod_eq_of_lt (fromBE_lt ops), beBytes_fromBE]
  · rintro rfl
    refine ⟨length_beBytes _ _, BitVec.eq_of_toNat_eq ?_⟩
    rw [BitVec.toNat_ofNat, fromBE_beBytes, ← hpow, Nat.mod_mod, Nat.mod_eq_of_lt v.isLt]

/-- R55, the value of a big-endian number: byte i of n has weight 2^(8(n-1-i)). -/
theorem fromBE_eq_sum {n : Nat} {s : List Byte} (h : s.length = n) :
    fromBE s = ((List.finRange n).map fun i : Fin n => (s.getD i.val 0).toNat * 2 ^ (8 * (n - 1 - i.val))).sum := by
  induction s generalizing n with
  | nil => subst h; rfl
  | cons b s ih =>
    obtain rfl : s.length + 1 = n := h
    rw [fromBE_cons, ih rfl, List.finRange_succ, List.map_cons, List.sum_cons, List.map_map]
    have hpow : 2 ^ (8 * s.length) = 256 ^ s.length := Nat.pow_mul 2 8 s.length
    simp [Function.comp_def, hpow, Nat.sub_sub, Nat.add_comm 1]

/-! ### Two-byte values, packed tables, sequences -/

/-- Two bytes read as the value `w` exactly where they are its two bytes (R103). -/
theorem ofBe2_eq_iff (hi lo : Byte) (w : UnitValue) : ofBe2 hi lo = w ↔ [hi, lo] = be2 w := by
  have := hi.isLt
  have := lo.isLt
  have := w.isLt
  simp only [ofBe2, be2, List.cons.injEq, and_true, ← BitVec.toNat_inj, BitVec.toNat_ofNat, BitVec.extractLsb'_toNat,
    Nat.shiftRight_eq_div_pow]
  omega

theorem be2_ofBe2 (hi lo : Byte) : be2 (ofBe2 hi lo) = [hi, lo] :=
  ((ofBe2_eq_iff hi lo _).1 rfl).symm

@[simp] theorem extractLsb'_high_ofBe2 (hi lo : Byte) : (ofBe2 hi lo).extractLsb' 8 8 = hi :=
  (List.cons.inj (be2_ofBe2 hi lo)).1

@[simp] theorem extractLsb'_low_ofBe2 (hi lo : Byte) : (ofBe2 hi lo).extractLsb' 0 8 = lo :=
  (List.cons.inj (List.cons.inj (be2_ofBe2 hi lo)).2).1

theorem toNat_ofBe2 (hi lo : Byte) : (ofBe2 hi lo).toNat = hi.toNat * 256 + lo.toNat := by
  have := hi.isLt
  have := lo.isLt
  rw [ofBe2, BitVec.toNat_ofNat]
  omega

/-- A byte is the two entries `hi`, `lo` packed exactly where they are its high and low four bits (R36). -/
theorem ofNat_nibbles_eq_iff (hi lo : Nibble) (b : Byte) :
    BitVec.ofNat 8 (hi.toNat * 16 + lo.toNat) = b ↔ hi = b.extractLsb' 4 4 ∧ lo = b.extractLsb' 0 4 := by
  have := hi.isLt
  have := lo.isLt
  have := b.isLt
  simp only [← BitVec.toNat_inj, BitVec.toNat_ofNat, BitVec.extractLsb'_toNat, Nat.shiftRight_eq_div_pow]
  omega

/-- Every byte is two entries. -/
theorem length_unpackNibbles (s : List Byte) : (unpackNibbles s).length = 2 * s.length := by
  induction s with
  | nil => rfl
  | cons b s ih => simp only [unpackNibbles, List.length_cons, ih]; omega

theorem packNibbles_unpackNibbles (s : List Byte) : packNibbles (unpackNibbles s) = s := by
  induction s with
  | nil => rfl
  | cons b s ih => rw [unpackNibbles, packNibbles, ih, (ofNat_nibbles_eq_iff _ _ b).2 ⟨rfl, rfl⟩]

theorem unpackNibbles_packNibbles {t : List Nibble} (h : t.length % 2 = 0) : unpackNibbles (packNibbles t) = t := by
  induction t using packNibbles.induct with
  | case1 hi lo rest ih =>
    obtain ⟨hhi, hlo⟩ := (ofNat_nibbles_eq_iff hi lo _).1 rfl
    rw [packNibbles, unpackNibbles, ih (by simp only [List.length_cons] at h; omega), ← hhi, ← hlo]
  | case2 t hshort =>
    match t, hshort, h with
    | [], _, _ => rfl
    | hi :: lo :: rest, hshort, _ => exact absurd rfl (hshort hi lo rest)

theorem exactly_eq_some_iff {α : Type} {n : Nat} (l : List α) (v : Vector α n) : exactly n l = some v ↔ l = v.toList := by
  obtain ⟨a, rfl⟩ := v
  unfold exactly
  constructor
  · intro h
    split at h
    · cases h; rfl
    · cases h
  · rintro rfl
    simp

/-! ### Readers and writers of the operand formats (R53) -/

@[simp] theorem readZ_eq_some_iff (ops : List Byte) (u : Unit) : readZ ops = some u ↔ ops = [] := by
  cases ops <;> simp [readZ]

@[simp] theorem readB1_eq_some_iff (ops : List Byte) (b : Byte) : readB1 ops = some b ↔ ops = [b] := by
  unfold readB1
  split <;> simp_all

@[simp] theorem readB2_eq_some_iff (ops : List Byte) (w : UnitValue) : readB2 ops = some w ↔ ops = be2 w := by
  unfold readB2
  split
  · next hi lo => rw [Option.some.injEq, ofBe2_eq_iff]
  · next hne => exact iff_of_false nofun fun h => hne _ _ h

@[simp] theorem readB4_eq_some_iff (ops : List Byte) (n : BitVec 32) : readB4 ops = some n ↔ ops = beBytes 4 n.toNat := by
  rw [← ofNat_fromBE_eq_iff 4 ops n]
  simp [readB4]

@[simp] theorem readP16_eq_some_iff (ops : List Byte) (p : Position) : readP16 ops = some p ↔ ops = beBytes 16 p.toNat := by
  rw [← ofNat_fromBE_eq_iff 16 ops p]
  simp [readP16]

@[simp] theorem readT8_eq_some_iff (ops : List Byte) (t : Table) : readT8 ops = some t ↔ ops = packTable t := by
  rw [readT8, exactly_eq_some_iff, packTable]
  constructor
  · intro h
    rw [← h, packNibbles_unpackNibbles]
  · rintro rfl
    exact unpackNibbles_packNibbles (by simp)

@[simp] theorem readS32_eq_some_iff (ops : List Byte) (s : Seed) : readS32 ops = some s ↔ ops = s.toList :=
  exactly_eq_some_iff ops s

@[simp] theorem readPD_eq_some_iff (ops : List Byte) (x : Position × List Byte) :
    readPD ops = some x ↔ ops = beBytes 16 x.1.toNat ++ x.2 := by
  obtain ⟨p, d⟩ := x
  simp only [readPD, Option.map_eq_some_iff, readP16_eq_some_iff, Prod.mk.injEq]
  constructor
  · rintro ⟨_, htake, rfl, rfl⟩
    rw [← htake, List.take_append_drop]
  · rintro rfl
    exact ⟨p, List.take_left' (length_beBytes _ _), rfl, List.drop_left' (length_beBytes _ _)⟩

/-! ### The lengths of the operand formats (R53) -/

@[simp] theorem readZ_eq_none_iff (ops : List Byte) : readZ ops = none ↔ ops.length ≠ 0 := by
  cases ops <;> simp [readZ]

@[simp] theorem readB1_eq_none_iff (ops : List Byte) : readB1 ops = none ↔ ops.length ≠ 1 := by
  unfold readB1
  split
  · simp
  · next hne => simpa [List.length_eq_one_iff] using hne

@[simp] theorem readB2_eq_none_iff (ops : List Byte) : readB2 ops = none ↔ ops.length ≠ 2 := by
  unfold readB2
  split
  · simp
  · next hne => simpa [List.length_eq_two] using hne

@[simp] theorem readB4_eq_none_iff (ops : List Byte) : readB4 ops = none ↔ ops.length ≠ 4 := by
  simp [readB4]

@[simp] theorem readT8_eq_none_iff (ops : List Byte) : readT8 ops = none ↔ ops.length ≠ 8 := by
  simp only [readT8, exactly, length_unpackNibbles, dite_eq_right_iff, reduceCtorEq, imp_false]
  omega

@[simp] theorem readP16_eq_none_iff (ops : List Byte) : readP16 ops = none ↔ ops.length ≠ 16 := by
  simp [readP16]

@[simp] theorem readS32_eq_none_iff (ops : List Byte) : readS32 ops = none ↔ ops.length ≠ 32 := by
  simp [readS32, exactly]

@[simp] theorem readPD_eq_none_iff (ops : List Byte) : readPD ops = none ↔ ops.length < 16 := by
  simp only [readPD, Option.map_eq_none_iff, readP16_eq_none_iff, List.length_take]
  omega

/-! ### Decoding and encoding -/

/-- The row an opcode selects is one of the map, under that opcode. -/
theorem mem_opcodeMap_of_opcodeRow {op : Byte} {row : OpcodeRow} (h : opcodeRow op = some row) :
    row ∈ opcodeMap ∧ row.opcode = op :=
  ⟨List.mem_of_find?_eq_some h, by simpa using List.find?_some h⟩

/-- The opcodes without a row are the reserved ones (R58). -/
theorem opcodeRow_eq_none_iff (op : Byte) : opcodeRow op = none ↔ op.toNat < 0x01 ∨ 0x0D < op.toNat := by
  simp only [opcodeRow, List.find?_eq_none, opcodeMap, List.forall_mem_cons, List.not_mem_nil, beq_iff_eq,
    IsEmpty.forall_iff, implies_true, and_true]
  bv_omega

/-- A row does not read operand bytes exactly where the frame has no legal length of the row's format (R57 c). -/
theorem read_eq_none_iff {row : OpcodeRow} (h : row ∈ opcodeMap) (ops : List Byte) :
    row.read ops = none ↔ row.format.legalLength (ops.length + 1) = false := by
  simp only [opcodeMap, List.mem_cons, List.not_mem_nil, or_false] at h
  rcases h with rfl | rfl | rfl | rfl | rfl | rfl | rfl | rfl | rfl | rfl | rfl | rfl | rfl <;>
    simp [Format.legalLength, Format.minLength]

/-- What a row reads is the command whose frame the bytes are. -/
theorem eq_encode_of_read {row : OpcodeRow} (h : row ∈ opcodeMap) {ops : List Byte} {i : Instr} (hr : row.read ops = some i) :
    row.opcode :: ops = encode i := by
  simp only [opcodeMap, List.mem_cons, List.not_mem_nil, or_false] at h
  rcases h with rfl | rfl | rfl | rfl | rfl | rfl | rfl | rfl | rfl | rfl | rfl | rfl | rfl <;>
    obtain ⟨x, hx, rfl⟩ := Option.map_eq_some_iff.1 hr <;>
    simpa [encode] using hx

/-- The frame of a command is read by the row of its opcode as that command. -/
theorem read_of_encode {i : Instr} {op : Byte} {ops : List Byte} (h : encode i = op :: ops) :
    ∃ row, opcodeRow op = some row ∧ row.read ops = some i := by
  cases i <;> obtain ⟨rfl, rfl⟩ := List.cons.inj h <;> exact ⟨_, rfl, by simp⟩

/-- What decoding makes of a frame with a byte (R57): a reserved opcode, a length that is not the format's, or the frame of
one command, within `MAX_DATA` or not. -/
theorem decode_cons_cases (max : Option Nat) (op : Byte) (ops : List Byte) :
    (opcodeRow op = none ∧ decode max (op :: ops) = .error (.reservedOpcode op)) ∨
    (∃ row, opcodeRow op = some row ∧ row.format.legalLength (op :: ops).length = false ∧
      decode max (op :: ops) = .error (.wrongLength op (op :: ops).length)) ∨
    ∃ i row, encode i = op :: ops ∧ opcodeRow op = some row ∧ row.format.legalLength (op :: ops).length = true ∧
      decode max (op :: ops) = if i.wf max then .ok i else .error (.overMaxData ((op :: ops).length - 17)) := by
  cases hrow : opcodeRow op with
  | none => exact .inl ⟨rfl, by simp only [decode, hrow]⟩
  | some row =>
    obtain ⟨hmem, rfl⟩ := mem_opcodeMap_of_opcodeRow hrow
    cases hr : row.read ops with
    | none => exact .inr (.inl ⟨row, rfl, (read_eq_none_iff hmem ops).1 hr, by simp only [decode, hrow, hr]⟩)
    | some i =>
      have hlen : row.format.legalLength (ops.length + 1) = true := by
        simpa [hr] using mt (read_eq_none_iff hmem ops).2
      exact .inr (.inr ⟨i, row, (eq_encode_of_read hmem hr).symm, rfl, hlen, by simp only [decode, hrow, hr]⟩)

/-- A frame is a command exactly where it is that command's frame and within `MAX_DATA` (R60). -/
theorem decode_eq_ok_iff (max : Option Nat) (f : Frame) (i : Instr) :
    decode max f = .ok i ↔ encode i = f ∧ i.wf max = true := by
  constructor
  · intro h
    obtain _ | ⟨op, ops⟩ := f
    · cases h
    · obtain ⟨_, hd⟩ | ⟨_, _, _, hd⟩ | ⟨j, _, hf, _, _, hd⟩ := decode_cons_cases max op ops <;> rw [hd] at h
      · cases h
      · cases h
      · split at h
        · next hwf => cases h; exact ⟨hf, hwf⟩
        · cases h
  · rintro ⟨rfl, hwf⟩
    obtain ⟨op, ops, hf⟩ : ∃ op ops, encode i = op :: ops := by cases i <;> exact ⟨_, _, rfl⟩
    obtain ⟨row, hrow, hr⟩ := read_of_encode hf
    simp only [hf, decode, hrow, hr, hwf, if_true]

/-- The frame of a command that is within `MAX_DATA` decodes to it. -/
theorem decode_of_encode {max : Option Nat} {f : Frame} {i : Instr} (hf : encode i = f) (hwf : i.wf max = true) :
    decode max f = .ok i :=
  (decode_eq_ok_iff max f i).2 ⟨hf, hwf⟩

/-- A number of data bytes is over `MAX_DATA` exactly where that is numeric and less (R57 d). -/
theorem withinMaxData_eq_false_iff (max : Option Nat) (n : Nat) : withinMaxData max n = false ↔ ∃ m, max = some m ∧ m < n := by
  cases max <;> simp [withinMaxData]

/-- A command's frame is over `MAX_DATA` exactly where it is ENCR or DECR with more data (R57 d). -/
theorem wf_eq_false_iff {i : Instr} {op : Byte} {ops : List Byte} (max : Option Nat) (h : encode i = op :: ops) :
    i.wf max = false ↔
      (op = 0x0A ∨ op = 0x0B) ∧ ∃ m, max = some m ∧ 17 ≤ (op :: ops).length ∧ m < (op :: ops).length - 17 := by
  cases i <;> obtain ⟨rfl, rfl⟩ := List.cons.inj h <;> simp [Instr.wf, withinMaxData_eq_false_iff]

/-- The three ways in which a frame with a byte is illegal (R57 b, c, d). -/
theorem decode_cons_error_iff (max : Option Nat) (op : Byte) (ops : List Byte) :
    (∃ e, decode max (op :: ops) = .error e) ↔
      opcodeRow op = none ∨ (∃ row, opcodeRow op = some row ∧ row.format.legalLength (op :: ops).length = false) ∨
      ((op = 0x0A ∨ op = 0x0B) ∧ ∃ m, max = some m ∧ 17 ≤ (op :: ops).length ∧ m < (op :: ops).length - 17) := by
  obtain ⟨hrow, hd⟩ | ⟨row, hrow, hlen, hd⟩ | ⟨i, row, hf, hrow, hlen, hd⟩ := decode_cons_cases max op ops
  · exact iff_of_true ⟨_, hd⟩ (.inl hrow)
  · exact iff_of_true ⟨_, hd⟩ (.inr (.inl ⟨row, hrow, hlen⟩))
  · rw [← wf_eq_false_iff max hf, hd]
    cases i.wf max <;> simp [hrow, hlen, -List.length_cons]

end Sys2Proof

namespace Sys2Proof.Machine

/-! ### Asking a block -/

/-- The state `s` with the block `t`, whose response the host has taken. -/
def taken (s : State) (t : Block) : State := { s with toBlock := { t with rspPort := none } }

@[simp] theorem taken_toBlock (s : State) (t : Block) : (taken s t).toBlock = { t with rspPort := none } := rfl

/-- What the host has of a command on `s` that comes to `r`: the response, OK with the payload or the one status byte, and
the state after taking it; nothing of a hang (R52, R76). -/
def answered (s : State) (r : Ran (List Byte)) : Option (Frame × State) :=
  match r with
  | .done payload t => some (0x00 :: payload, taken s t)
  | .failed e t => some ([e.code], taken s t)
  | .hung _ => none

@[simp] theorem answered_done (s : State) (payload : List Byte) (t : Block) :
    answered s (.done payload t) = some (0x00 :: payload, taken s t) := rfl
@[simp] theorem answered_failed (s : State) (e : ErrorKind) (t : Block) :
    answered s (.failed e t) = some ([e.code], taken s t) := rfl
@[simp] theorem answered_hung (s : State) (t : Block) : answered s (.hung t) = none := rfl

/-- The frame of a well-formed command runs as that command. -/
theorem runFrame_encode {i : Instr} {s : State} (hw : i.wf s.build.maxData = true) :
    onBlock s (fun b t => runFrame b (encode i) t) = exec i s := by
  have hi : decode s.build.maxData (encode i) = .ok i := decode_of_encode rfl hw
  obtain ⟨⟨e, he⟩, _⟩ | ⟨j, hj, hrun⟩ := runFrame_cases (encode i) s
  · cases hi.symm.trans he
  · cases hi.symm.trans hj
    exact hrun

/-- Asking for a command is hearing how it ends. -/
theorem ask_of_finish {i : Instr} {s : State} {r : Build → Block → Ran (List Byte)} (hw : i.wf s.build.maxData = true)
    (h : exec i s = onBlock s fun b t => finish (r b t)) (hh : (r s.build s.toBlock).state.hung = false) :
    ask i s = answered s (r s.build s.toBlock) := by
  rw [ask, sendFrame, runFrame_encode hw, h, onBlock_eq]
  cases hr : r s.build s.toBlock with
  | done payload t =>
    have ht : t.hung = false := by simpa [hr] using hh
    simp [respondOk_eq, taken, ht]
  | failed e t =>
    have ht : t.hung = false := by simpa [hr] using hh
    simp [raise_eq, taken, ht]
  | hung t => simp [hang_eq]

/-- A hung block answers nothing. -/
theorem ask_of_hung {i : Instr} {s : State} (hw : i.wf s.build.maxData = true) (hh : s.hung = true) : ask i s = none := by
  rw [ask, sendFrame, runFrame_encode hw]
  obtain ⟨t, ht, _⟩ | ⟨_, _, ht⟩ := exec_endsWell i s <;> rw [ht]
  have hung : t.hung = true := by
    obtain ⟨he, _⟩ | ⟨_, _, he, _⟩ := (exec_commandEnd ht).ending
    · exact he.trans hh
    · exact he
  simp [hung]

theorem ask_seek (p : Position) {s : State} (hs : s.seedValid = true) (hh : s.hung = false) :
    ask (.seek p) s = some ([0x00], taken s (s.setPos p)) :=
  ask_of_finish (r := fun _ t => .done [] (t.setPos p)) rfl (exec_seek_seeded p hs) hh

theorem newTable_of_done {b : Build} {s : Block} {t : Table} {p : Position}
    (h : generate (genOf b.gen) s.seed s.pos = .done t p) : newTable b s = .done t ((s.setPos p).loadTable t) := by
  simp only [newTable, h]

theorem newTable_of_endless {b : Build} {s : Block} {p : Position} (h : generate (genOf b.gen) s.seed s.pos = .endless p) :
    newTable b s = .hung (s.setPos p) := by
  simp only [newTable, h]

theorem ask_gentab {s : State} {t : Block} (hs : t.seedValid = true) (hh : t.hung = false) :
    ask .gentab (taken s t) =
      answered s ((newTable s.build (taken s t).toBlock).bind fun table u => .done (packTable table) u) := by
  have hsame : SameElsewhere (taken s t).toBlock
      ((newTable s.build (taken s t).toBlock).bind fun table u => .done (packTable table) u).state :=
    sameElsewhere_bind _ _ _ (sameElsewhere_newTable _ _) fun _ _ h => h
  exact ask_of_finish (s := taken s t) rfl (exec_gentab_seeded hs) (hsame.hung.trans hh)

/-- GENTAB answers the table it leaves. -/
theorem ask_gentab_done {s : State} {t : Block} {table : Table} {p : Position} (hs : t.seedValid = true) (hh : t.hung = false)
    (hg : generate (genOf s.build.gen) t.seed t.pos = .done table p) :
    ask .gentab (taken s t) = some (0x00 :: packTable table, taken s ((t.setPos p).loadTable table)) := by
  rw [ask_gentab hs hh, newTable_of_done (s := (taken s t).toBlock) hg]
  rfl

theorem ask_gentab_endless {s : State} {t : Block} {p : Position} (hs : t.seedValid = true) (hh : t.hung = false)
    (hg : generate (genOf s.build.gen) t.seed t.pos = .endless p) : ask .gentab (taken s t) = none := by
  rw [ask_gentab hs hh, newTable_of_endless (s := (taken s t).toBlock) hg]
  rfl

/-- ENC answers the encoded byte where there is a table, and leaves the block. -/
theorem ask_enc (x : Byte) {s : State} {t : Block} (hv : t.tableValid = true) (hp : isPerm t.table = true) (hh : t.hung = false) :
    ask (.enc x) (taken s t) = some (0x00 :: encodeUnit t.table x, taken s t) :=
  ask_of_finish (s := taken s t) (r := fun _ u => .done (encodeUnit u.table x) u) rfl
    ((exec_enc x _).trans (onBlock_congr (withTable_perm _ hv hp))) hh

/-- DEC answers the decoded byte where there is a table and the check passes, and leaves the block. -/
theorem ask_dec_ok {hi lo x : Byte} {s : State} {t : Block} (hv : t.tableValid = true) (hp : isPerm t.table = true)
    (hh : t.hung = false) (hx : decodeUnit t.table hi lo = some x) :
    ask (.dec (ofBe2 hi lo)) (taken s t) = some ([0x00, x], taken s t) :=
  ask_of_finish (s := taken s t) (r := fun _ u => .done [x] u) rfl
    ((exec_dec _ _).trans (onBlock_congr ((withTable_perm (s := (taken s t).toBlock) _ hv hp).trans (by simp [hx])))) hh

/-- DEC is Corrupt where there is a table and the check fails, and leaves the block. -/
theorem ask_dec_corrupt {hi lo : Byte} {s : State} {t : Block} (hv : t.tableValid = true) (hp : isPerm t.table = true)
    (hh : t.hung = false) (hx : decodeUnit t.table hi lo = none) :
    ask (.dec (ofBe2 hi lo)) (taken s t) = some ([ErrorKind.corrupt.code], taken s t) :=
  ask_of_finish (s := taken s t) (r := fun _ u => .failed .corrupt u) rfl
    ((exec_dec _ _).trans (onBlock_congr ((withTable_perm (s := (taken s t).toBlock) _ hv hp).trans (by simp [hx])))) hh

/-! ### Sequences of commands -/

theorem runCommands_cons_none {i : Instr} {s : State} (rest : List Instr) (h : ask i s = none) :
    runCommands (i :: rest) s = none := by
  simp only [runCommands, h]

theorem runCommands_cons_error {i : Instr} {s t : State} {r : Frame} (rest : List Instr) (h : ask i s = some (r, t))
    (hr : isOk r = false) : runCommands (i :: rest) s = some ([r], t) := by
  simp [runCommands, h, hr]

theorem runCommands_cons_ok {i : Instr} {s t : State} {r : Frame} (rest : List Instr) (h : ask i s = some (r, t))
    (hr : isOk r = true) : runCommands (i :: rest) s = (runCommands rest t).map fun x => (r :: x.1, x.2) := by
  simp only [runCommands, h, hr, if_true]
  cases runCommands rest t <;> rfl

/-- The responses and state `x` of units issued by hand on `s` are what the command's own loop, coming to `r`, makes of them:
OK responses with its payload, OK responses and then its error, or a hang for a hang. -/
def UnitsAnswer (s : State) (x : Option (List Frame × State)) (r : Ran (List Byte)) : Prop :=
  match r with
  | .done payload t => ∃ rs, x = some (rs, taken s t) ∧ (∀ f ∈ rs, isOk f = true) ∧ unitPayloads rs = payload
  | .failed e t => ∃ rs, x = some (rs ++ [[e.code]], taken s t) ∧ ∀ f ∈ rs, isOk f = true
  | .hung _ => x = none

@[simp] theorem isOk_ok (payload : List Byte) : isOk (0#8 :: payload) = true := rfl

@[simp] theorem isOk_error (e : ErrorKind) : isOk [e.code] = false := by
  cases e <;> rfl

/-- An answered unit before others: its payload comes before theirs. -/
theorem UnitsAnswer.cons {s : State} {x : Option (List Frame × State)} {r : Ran (List Byte)} (a y : List Byte)
    (h : UnitsAnswer s x r) :
    UnitsAnswer s (x.map fun z => ((0x00 :: a) :: (0x00 :: y) :: z.1, z.2)) (r.bind fun out t => .done (y ++ out) t) := by
  cases r with
  | done payload t =>
    obtain ⟨rs, rfl, hok, rfl⟩ := h
    exact ⟨_, rfl, by simpa using hok, rfl⟩
  | failed e t =>
    obtain ⟨rs, rfl, hok⟩ := h
    exact ⟨(0x00 :: a) :: (0x00 :: y) :: rs, rfl, by simpa using hok⟩
  | hung t =>
    obtain rfl : x = none := h
    rfl

section
variable {s : State} {t : Block} {table : Table} {p : Position} {i : Instr} {rest : List Instr}

/-- A unit whose table never ends: nothing is heard of it. -/
theorem unitsAnswer_endless (hs : t.seedValid = true) (hh : t.hung = false)
    (hg : generate (genOf s.build.gen) t.seed t.pos = .endless p) (u : Block) :
    UnitsAnswer s (runCommands (.gentab :: rest) (taken s t)) (.hung u) :=
  runCommands_cons_none rest (ask_gentab_endless hs hh hg)

/-- A unit whose second command is an error ends the sequence. -/
theorem unitsAnswer_failed {e : ErrorKind} (hs : t.seedValid = true) (hh : t.hung = false)
    (hg : generate (genOf s.build.gen) t.seed t.pos = .done table p)
    (hi : ask i (taken s ((t.setPos p).loadTable table)) = some ([e.code], taken s ((t.setPos p).loadTable table))) :
    UnitsAnswer s (runCommands (.gentab :: i :: rest) (taken s t)) (.failed e ((t.setPos p).loadTable table)) := by
  rw [runCommands_cons_ok _ (ask_gentab_done hs hh hg) (isOk_ok _), runCommands_cons_error _ hi (isOk_error e)]
  exact ⟨[0x00 :: packTable table], rfl, by simp⟩

/-- A unit whose second command answers `y`, before units that come to `r`. -/
theorem unitsAnswer_ok {y : List Byte} {r : Ran (List Byte)} (hs : t.seedValid = true) (hh : t.hung = false)
    (hg : generate (genOf s.build.gen) t.seed t.pos = .done table p)
    (hi : ask i (taken s ((t.setPos p).loadTable table)) = some (0x00 :: y, taken s ((t.setPos p).loadTable table)))
    (hr : UnitsAnswer s (runCommands rest (taken s ((t.setPos p).loadTable table))) r) :
    UnitsAnswer s (runCommands (.gentab :: i :: rest) (taken s t)) (r.bind fun out u => .done (y ++ out) u) := by
  rw [runCommands_cons_ok _ (ask_gentab_done hs hh hg) (isOk_ok _), runCommands_cons_ok _ hi (isOk_ok _), Option.map_map]
  exact hr.cons _ _

end

/-- GENTAB and ENC per byte are the loop of `EncryptRaw` (R63, R113). -/
theorem unitsAnswer_encryptUnits (s : State) (d : List Byte) (t : Block) (hs : t.seedValid = true) (hh : t.hung = false) :
    UnitsAnswer s (runCommands (d.flatMap fun b => [.gentab, .enc b]) (taken s t)) (encryptUnits s.build d t) := by
  induction d generalizing t with
  | nil => exact ⟨[], rfl, nofun, rfl⟩
  | cons x rest ih =>
    obtain ⟨table, p, hg, hn⟩ | ⟨p, hg, hn⟩ := newTable_cases s.build t
    · simp only [encryptUnits, hn, bind_done]
      exact unitsAnswer_ok hs hh hg (ask_enc x rfl (isPerm_of_generate hg) hh) (ih _ hs hh)
    · simp only [encryptUnits, hn, bind_hung]
      exact unitsAnswer_endless hs hh hg _

/-- GENTAB and DEC per pair are the loop of `DecryptRaw` on data of even length (R63, R114). -/
theorem unitsAnswer_decryptUnits (s : State) (d : List Byte) (t : Block) (hd : d.length % 2 = 0) (hs : t.seedValid = true)
    (hh : t.hung = false) : UnitsAnswer s (runCommands (decUnits d) (taken s t)) (decryptUnits s.build d t) := by
  induction d using decUnits.induct generalizing t with
  | case1 hi lo rest ih =>
    obtain ⟨table, p, hg, hn⟩ | ⟨p, hg, hn⟩ := newTable_cases s.build t <;> simp only [decryptUnits, hn]
    · have hp := isPerm_of_generate hg
      rw [bind_done]
      cases hx : decodeUnit table hi lo with
      | none => exact unitsAnswer_failed hs hh hg (ask_dec_corrupt rfl hp hh hx)
      | some x =>
        have hrest : rest.length % 2 = 0 := by simp only [List.length_cons] at hd; omega
        exact unitsAnswer_ok hs hh hg (ask_dec_ok rfl hp hh hx) (ih _ hrest hs hh)
    · exact unitsAnswer_endless hs hh hg _
  | case2 d hshort =>
    match d, hshort, hd with
    | [], _, _ => exact ⟨[], rfl, nofun, rfl⟩
    | hi :: lo :: rest, hshort, _ => exact absurd rfl (hshort hi lo rest)

/-- What the host makes of a SEEK that is answered and the units after it (R63). -/
theorem byHand_seek {s : State} {p : Position} {l : List Instr} {r : Ran (List Byte)} (hs : s.seedValid = true)
    (hh : s.hung = false) (h : UnitsAnswer s (runCommands l (taken s (s.setPos p))) r) :
    byHand (.seek p :: l) s = answered s r := by
  rw [byHand, runCommands_cons_ok l (ask_seek p hs hh) (isOk_ok [])]
  cases r with
  | done payload t =>
    obtain ⟨rs, hx, hok, rfl⟩ := h
    have hno : rs.find? (fun r => !isOk r) = none := by simpa using hok
    simp [hx, hno]
  | failed e t =>
    obtain ⟨rs, hx, hok⟩ := h
    have hno : rs.find? (fun r => !isOk r) = none := by simpa using hok
    simp [hx, hno]
  | hung t =>
    have hx : runCommands l (taken s (s.setPos p)) = none := h
    simp [hx]

/-- A SEEK that is not answered ends the sequence: nothing is heard. -/
theorem byHand_of_ask_none {i : Instr} {s : State} (l : List Instr) (h : ask i s = none) : byHand (i :: l) s = none := by
  rw [byHand, runCommands_cons_none l h]

/-- A first command that is an error is the answer. -/
theorem byHand_of_ask_error {i : Instr} {s t : State} {e : ErrorKind} (l : List Instr) (h : ask i s = some ([e.code], t)) :
    byHand (i :: l) s = some ([e.code], t) := by
  rw [byHand, runCommands_cons_error l h (isOk_error e)]
  simp

/-- NoSeed answers where there is no seed. -/
theorem ask_noSeed {i : Instr} {s : State} (hw : i.wf s.build.maxData = true) (hh : s.hung = false)
    (h : exec i s = onBlock s fun _ t => raise .noSeed t) : ask i s = some ([ErrorKind.noSeed.code], taken s s.toBlock) :=
  ask_of_finish (r := fun _ t => .failed .noSeed t) hw h hh

/-- A command equals SEEK and units issued by hand (R63) where, like SEEK, it is NoSeed without a seed, and else comes to what
the units answer. -/
theorem byHand_eq_ask {i : Instr} {s : State} {p : Position} {l : List Instr} {r : Build → Block → Ran (List Byte)}
    (hw : i.wf s.build.maxData = true) (hno : s.seedValid = false → exec i s = onBlock s fun _ t => raise .noSeed t)
    (hok : s.seedValid = true → exec i s = onBlock s fun b t => finish (r b (t.setPos p)))
    (hsame : SameElsewhere (s.setPos p) (r s.build (s.setPos p)).state)
    (hunits : s.seedValid = true → s.hung = false →
      UnitsAnswer s (runCommands l (taken s (s.setPos p))) (r s.build (s.setPos p))) :
    byHand (.seek p :: l) s = ask i s := by
  cases hh : s.hung with
  | true => rw [ask_of_hung hw hh, byHand_of_ask_none l (ask_of_hung rfl hh)]
  | false =>
    cases hs : s.seedValid with
    | false => rw [ask_noSeed hw hh (hno hs), byHand_of_ask_error l (ask_noSeed rfl hh (exec_seek_noSeed p hs))]
    | true => rw [byHand_seek hs hh (hunits hs hh), ask_of_finish hw (hok hs) (hsame.hung.trans hh)]

end Sys2Proof.Machine

namespace Sys2Proof.EncodingObligations

open Sys2Proof.Machine

/-! ### The statements -/

/-- Settles O41: the command's frame decodes to the one command whose frame it is. -/
theorem decodeUndoesEncode : Obligations.DecodeUndoesEncode :=
  fun _ _ hwf => decode_of_encode rfl hwf

/-- Settles O42: what decodes is the frame of the command it decodes to. -/
theorem encodeUndoesDecode : Obligations.EncodeUndoesDecode :=
  fun max f i => (decode_eq_ok_iff max f i).1

/-- Settles O34: SEEK, then the units of `EncryptRaw` issued by hand. -/
theorem encrEqualsItsExpansion : Obligations.EncrEqualsItsExpansion := fun p d s hw =>
  byHand_eq_ask hw (exec_encr_noSeed p d) (exec_encr_seeded p d) (sameElsewhere_encryptUnits _ _ _)
    (unitsAnswer_encryptUnits s d (s.setPos p))

/-- Settles O35: SEEK, then the units of `DecryptRaw` issued by hand. -/
theorem decrEqualsItsExpansion : Obligations.DecrEqualsItsExpansion := fun p d s hw hd =>
  byHand_eq_ask hw (exec_decr_noSeed p hd) (exec_decr_seeded p hd) (sameElsewhere_decryptUnits _ _ _)
    (unitsAnswer_decryptUnits s d (s.setPos p) hd)

/-- Settles O43: the empty frame, and the three ways in which a frame with a byte is illegal. -/
theorem illegalFramesAreExactlyThoseOfTheRule : Obligations.IllegalFramesAreExactlyThoseOfTheRule := by
  intro max f
  obtain _ | ⟨op, ops⟩ := f
  · exact iff_of_true ⟨_, rfl⟩ (.inl rfl)
  · rw [decode_cons_error_iff, opcodeRow_eq_none_iff]
    simp [or_assoc]

/-- Settles O44: each frame is that of the command whose operands are the numbers of its bytes. -/
theorem operandsAreAssembledBigEndian : Obligations.OperandsAreAssembledBigEndian := by
  refine ⟨fun max a b c d => ?_, fun max hi lo => ?_, fun max F d hF hd => ?_, fun max s => decode_of_encode rfl rfl⟩
  · have hsum : fromBE [a, b, c, d] = a.toNat * 2 ^ 24 + b.toNat * 2 ^ 16 + c.toNat * 2 ^ 8 + d.toNat := by
      simp only [fromBE, List.foldl_cons, List.foldl_nil]
      ring
    rw [← hsum]
    exact decode_of_encode (congrArg (0x03 :: ·) ((ofNat_fromBE_eq_iff 4 [a, b, c, d] _).1 ⟨rfl, rfl⟩).symm) rfl
  · have hbe := be2_ofBe2 hi lo
    exact ⟨ofBe2 hi lo, toNat_ofBe2 hi lo, decode_of_encode (congrArg (0x06 :: ·) hbe) rfl,
      decode_of_encode (congrArg (0x07 :: ·) hbe) rfl, decode_of_encode (congrArg (0x09 :: ·) hbe) rfl⟩
  · obtain ⟨p, hp⟩ : ∃ p : Position, F = beBytes 16 p.toNat := ⟨_, (ofNat_fromBE_eq_iff 16 F _).1 ⟨hF, rfl⟩⟩
    have hval : p.toNat = fromBE F := by
      rw [hp, fromBE_beBytes]
      exact (Nat.mod_eq_of_lt p.isLt).symm
    refine ⟨p, hval.trans (fromBE_eq_sum hF), ?_⟩
    rw [hp]
    exact ⟨decode_of_encode rfl rfl, decode_of_encode rfl hd, decode_of_encode rfl hd⟩

/-- Settles O52: how every command ends, on a block with an empty response port that is not hung. -/
theorem oneResponsePerCommand : Obligations.OneResponsePerCommand := by
  intro i s t hp hh h
  obtain ⟨he, hr⟩ | ⟨_, _, he, hr⟩ := (exec_commandEnd h).ending
  · exact .inr ⟨he.trans hh, hr⟩
  · exact .inl ⟨he, hr.trans hp⟩

/-- Settles O45: each written frame is the frame of its command. -/
theorem specFramesDecode : Obligations.SpecFramesDecode :=
  ⟨decode_of_encode rfl rfl, decode_of_encode rfl rfl, decode_of_encode rfl rfl, decode_of_encode rfl rfl,
    decode_of_encode rfl rfl, decode_of_encode rfl rfl⟩

end Sys2Proof.EncodingObligations

end

/-!
The keystream commands (spec/40_keystream.md): when a draw ends and what DRAW makes of it; the unit loops of ENCR and DECR as
far as their tables are generated, and their hang; the step of a hung block.
-/

section

namespace Sys2Proof.Machine

open Sys2Proof.Safety

/-! ### Bounded draws -/

/-- 2^j - 1 has j bits (R7). -/
theorem bitlen_two_pow_sub_one (j : Nat) : bitlen (2 ^ j - 1) = j := by
  have hpos : 0 < 2 ^ j := Nat.two_pow_pos j
  refine Nat.le_antisymm (bitlen_le_of_lt (by omega)) ((Nat.pow_le_pow_iff_right Nat.one_lt_two).1 ?_)
  have := lt_two_pow_bitlen (2 ^ j - 1)
  omega

/-- For a power of two every attempt accepts (R73). -/
theorem accepted_two_pow (g : Gen) (seed : Seed) (j : Nat) (p : Position) : accepted g seed (2 ^ j) p := by
  rw [accepted, bitlen_two_pow_sub_one]
  exact Nat.mod_lt _ (Nat.two_pow_pos j)

/-- The first accepted attempt is one of the first 2^128: position `a` is also position `a` modulo 2^128. -/
theorem lt_of_first_accepted {g : Gen} {seed : Seed} {n a : Nat} {p : Position}
    (ha : accepted g seed n (p + BitVec.ofNat 128 a))
    (hfirst : ∀ b < a, ¬ accepted g seed n (p + BitVec.ofNat 128 b)) : a < 2 ^ 128 := by
  by_contra hle
  have hwrap : BitVec.ofNat 128 (a % 2 ^ 128) = BitVec.ofNat 128 a := BitVec.eq_of_toNat_eq (by simp)
  exact hfirst (a % 2 ^ 128) (by omega) (hwrap ▸ ha)

/-- A draw answers the first accepted word, and POS is then after it (R74); the attempts before it need no bound. -/
theorem nextBounded_of_first_accepted {g : Gen} {seed : Seed} {n a : Nat} {p : Position}
    (ha : accepted g seed n (p + BitVec.ofNat 128 a))
    (hfirst : ∀ b < a, ¬ accepted g seed n (p + BitVec.ofNat 128 b)) :
    nextBounded g seed n p =
      .done ((g seed (p + BitVec.ofNat 128 a)).toNat % 2 ^ bitlen (n - 1)) (p + BitVec.ofNat 128 (a + 1)) :=
  (nextBounded_eq_done_iff g seed n p _ _).2 ⟨a, lt_of_first_accepted ha hfirst, hfirst, rfl, ha, rfl⟩

/-- A draw over a power of two takes one word (R73). -/
theorem nextBounded_two_pow (g : Gen) (seed : Seed) (j : Nat) (p : Position) :
    nextBounded g seed (2 ^ j) p = .done ((g seed p).toNat % 2 ^ j) (p + 1) := by
  simpa [bitlen_two_pow_sub_one] using nextBounded_of_first_accepted (a := 0) (accepted_two_pow g seed j _) nofun

/-- A draw ends exactly where some word, going round the space, is accepted (R76). -/
theorem nextBounded_ends_iff (g : Gen) (seed : Seed) (n : Nat) (p : Position) :
    (∃ v q, nextBounded g seed n p = .done v q) ↔ ∃ a < 2 ^ 128, accepted g seed n (p + BitVec.ofNat 128 a) := by
  constructor
  · rintro ⟨v, q, h⟩
    obtain ⟨a, ha, _, rfl, hlt, _⟩ := (nextBounded_eq_done_iff g seed n p q v).1 h
    exact ⟨a, ha, hlt⟩
  · rintro ⟨a, ha, hacc⟩
    cases h : nextBounded g seed n p with
    | done v q => exact ⟨v, q, rfl⟩
    | endless q => exact absurd hacc (((nextBounded_eq_endless_iff g seed n p q).1 h).2 a ha)

/-- Under a live generator some word is accepted for every range a command can have (R32 G4): a range of one is a power of
two, and any other has the bit length G4 speaks of. -/
theorem exists_accepted_of_live {g : Gen} (hg : Live g) (seed : Seed) {n : Nat} (p : Position) (h1 : 1 ≤ n) (h32 : n < 2 ^ 32) :
    ∃ a < 2 ^ 128, accepted g seed n (p + BitVec.ofNat 128 a) := by
  obtain rfl | hn : n = 1 ∨ 1 < n := by omega
  · exact ⟨0, by decide, accepted_two_pow g seed 0 _⟩
  · have hupper : n - 1 < 2 ^ bitlen (n - 1) := lt_two_pow_bitlen (n - 1)
    have hk1 : 1 ≤ bitlen (n - 1) := by
      by_contra h0
      rw [show bitlen (n - 1) = 0 by omega] at hupper
      omega
    have hlower : 2 ^ (bitlen (n - 1) - 1) < n := by
      by_contra hle
      have := bitlen_le_of_lt (show n - 1 < 2 ^ (bitlen (n - 1) - 1) by omega)
      omega
    exact hg seed p _ n hk1 (bitlen_le_of_lt (by omega)) hlower (by omega) h32

/-! ### DRAW -/

section
variable {s : State} {n : BitVec 32}

/-- DRAW where its draw ends (R72, R74). -/
theorem exec_draw_of_done {v : Nat} {q : Position} (hn : n ≠ 0) (hs : s.seedValid = true)
    (h : nextBounded s.gen s.seed n.toNat s.pos = .done v q) :
    exec (.draw n) s = .next { s with pos := q, rspPort := some (0x00 :: beBytes 4 v) } := by
  have hdraw : drawInto s.build n.toNat s.toBlock = .done v (s.setPos q) := by rw [drawInto, ← gen_eq, h]
  rw [exec_draw_seeded hn hs, onBlock_eq, hdraw]
  rfl

/-- DRAW where its draw never ends (R76): POS is where it began. -/
theorem exec_draw_of_endless {q : Position} (hn : n ≠ 0) (hs : s.seedValid = true)
    (h : nextBounded s.gen s.seed n.toNat s.pos = .endless q) : exec (.draw n) s = .next { s with hung := true } := by
  have hdraw : drawInto s.build n.toNat s.toBlock = .hung s.toBlock := by
    obtain ⟨v, p, hdone, _⟩ | ⟨_, hhung⟩ := drawInto_cases s.build n.toNat s.toBlock
    · cases hdone.symm.trans h
    · exact hhung
  rw [exec_draw_seeded hn hs, onBlock_eq, hdraw]
  rfl

/-- What DRAW makes of the response port and of POS is a function of the build, the seed, POS and the response port (R75). -/
theorem exec_draw_congr {u b v : State} (hb : exec (.draw n) s = .next b) (hv : exec (.draw n) u = .next v)
    (hbuild : u.build = s.build) (hseed : u.seed = s.seed) (hpos : u.pos = s.pos) (hrsp : u.rspPort = s.rspPort)
    (hs : s.seedValid = true) (hu : u.seedValid = true) : b.rspPort = v.rspPort ∧ b.pos = v.pos := by
  by_cases hn : n = 0
  · rw [exec_draw_zero _ hn] at hb hv
    cases hb
    cases hv
    exact ⟨rfl, hpos.symm⟩
  · have hdraw : nextBounded u.gen u.seed n.toNat u.pos = nextBounded s.gen s.seed n.toNat s.pos := by
      rw [gen_eq, gen_eq, hbuild, hseed, hpos]
    cases h : nextBounded s.gen s.seed n.toNat s.pos with
    | done w q =>
      cases (exec_draw_of_done hn hs h).symm.trans hb
      cases (exec_draw_of_done hn hu (hdraw.trans h)).symm.trans hv
      exact ⟨rfl, rfl⟩
    | endless q =>
      cases (exec_draw_of_endless hn hs h).symm.trans hb
      cases (exec_draw_of_endless hn hu (hdraw.trans h)).symm.trans hv
      exact ⟨hrsp.symm, hpos.symm⟩

end

/-! ### Units whose tables are generated -/

/-- The block `s` after the tables `ts` of some units were generated and POS was left at `p` (R96). -/
def afterTables (s : Block) (ts : List Table) (p : Position) : Block :=
  { s with pos := p, table := ts.getLastD s.table, tableValid := s.tableValid || decide (0 < ts.length) }

theorem afterTables_nil (s : Block) : afterTables s [] s.pos = s := by
  simp [afterTables]

/-- The first of the tables is loaded, then the others. -/
theorem afterTables_cons (s : Block) (t : Table) (ts : List Table) (q p : Position) :
    afterTables ((s.setPos q).loadTable t) ts p = afterTables s (t :: ts) p := by
  simp only [afterTables, Block.setPos, Block.loadTable, List.getLastD_cons, List.length_cons, Nat.zero_lt_succ, decide_true,
    Bool.or_true, Bool.true_or]

/-- The tables of units in a row, the first one apart. -/
theorem unitTables_succ_done_iff (g : Gen) (seed : Seed) (k : Nat) (p r : Position) (ts : List Table) :
    unitTables g seed (k + 1) p = .done ts r ↔
      ∃ t q rest, generate g seed p = .done t q ∧ unitTables g seed k q = .done rest r ∧ ts = t :: rest := by
  rw [unitTables]
  cases generate g seed p with
  | endless q => simp
  | done t q => cases h : unitTables g seed k q <;> simp [h, eq_comm, and_comm]

/-- Each unit has one table. -/
theorem length_of_unitTables {g : Gen} {seed : Seed} {j : Nat} {p q : Position} {ts : List Table}
    (h : unitTables g seed j p = .done ts q) : ts.length = j := by
  induction j generalizing p ts with
  | zero => cases h; rfl
  | succ k ih =>
    obtain ⟨t, q', rest, _, hrest, rfl⟩ := (unitTables_succ_done_iff g seed k p q ts).1 h
    exact congrArg (· + 1) (ih hrest)

theorem bind_done_right {α : Type} (r : Ran α) : r.bind .done = r := by
  cases r <;> rfl

theorem bind_bind {α β γ : Type} (r : Ran α) (k : α → Block → Ran β) (l : β → Block → Ran γ) :
    (r.bind k).bind l = r.bind fun a s => (k a s).bind l := by
  cases r <;> rfl

section
variable {b : Build} {s : Block} {j : Nat} {ts : List Table} {d : List Byte} {q r : Position}

/-- The loop of `EncryptRaw` (R113), its first `j` units apart: their bytes, then what the other units come to after them. -/
theorem encryptUnits_after (h : unitTables (genOf b.gen) s.seed j s.pos = .done ts q) (hd : j ≤ d.length) :
    encryptUnits b d s = (encryptUnits b (d.drop j) (afterTables s ts q)).bind fun out u =>
      .done ((List.zipWith encodeUnit ts d).flatten ++ out) u := by
  induction j generalizing s ts d with
  | zero =>
    cases h
    rw [afterTables_nil]
    exact (bind_done_right _).symm
  | succ k ih =>
    obtain ⟨t, p, rest, hg, hrest, rfl⟩ := (unitTables_succ_done_iff _ _ k _ q ts).1 h
    match d, hd with
    | x :: xs, hd =>
      have hxs := ih (s := (s.setPos p).loadTable t) hrest (Nat.le_of_succ_le_succ hd)
      simp only [encryptUnits, newTable_of_done hg, bind_done, hxs, afterTables_cons, bind_bind, List.drop_succ_cons,
        List.zipWith_cons_cons, List.flatten_cons, List.append_assoc]

/-- The loop of `DecryptRaw` (R114), its first `j` units apart, which decode: their bytes, then what the other units come to
after them. -/
theorem decryptUnits_after {out : List Byte} (h : unitTables (genOf b.gen) s.seed j s.pos = .done ts q)
    (hd : j ≤ (pairs d).length)
    (hout : List.zipWith (fun t c => decodeUnit t c.1 c.2) ts (pairs d) = out.map some) :
    decryptUnits b d s = (decryptUnits b (d.drop (2 * j)) (afterTables s ts q)).bind fun rest u => .done (out ++ rest) u := by
  induction j generalizing s ts d out with
  | zero =>
    cases h
    obtain rfl : out = [] := List.map_eq_nil_iff.1 hout.symm
    rw [afterTables_nil]
    exact (bind_done_right _).symm
  | succ k ih =>
    obtain ⟨t, p, rest, hg, hrest, rfl⟩ := (unitTables_succ_done_iff _ _ k _ q ts).1 h
    match d, hd, out, hout with
    | hi :: lo :: xs, hd, y :: ys, hout =>
      obtain ⟨hy, hys⟩ := List.cons.inj hout
      have hxs := ih (s := (s.setPos p).loadTable t) hrest (Nat.le_of_succ_le_succ hd) hys
      simp only [decryptUnits, newTable_of_done hg, bind_done, hy, hxs, afterTables_cons, bind_bind, Nat.mul_succ,
        List.drop_succ_cons, List.cons_append]

/-- A pair that is left lies in the data. -/
theorem exists_drop_eq_of_lt_pairs {j : Nat} {d : List Byte} (h : j < (pairs d).length) :
    ∃ hi lo rest, d.drop (2 * j) = hi :: lo :: rest := by
  induction j generalizing d with
  | zero => match d, h with | hi :: lo :: rest, _ => exact ⟨hi, lo, rest, rfl⟩
  | succ k ih => match d, h with | _ :: _ :: rest, h => exact ih (Nat.lt_of_succ_lt_succ h)

/-- Encryption hangs at the first unit whose table never ends, with the tables before it generated (R111). -/
theorem encryptUnits_of_endless (h : unitTables (genOf b.gen) s.seed j s.pos = .done ts q)
    (hr : generate (genOf b.gen) s.seed q = .endless r) (hd : j < d.length) :
    encryptUnits b d s = .hung (afterTables s ts r) := by
  have hn : newTable b (afterTables s ts q) = .hung (afterTables s ts r) := newTable_of_endless hr
  rw [encryptUnits_after h hd.le, List.drop_eq_getElem_cons hd, encryptUnits, hn, bind_hung, bind_hung]

/-- Decryption hangs at the first unit whose table never ends, with the tables before it generated, where the units before it
decode (R112). -/
theorem decryptUnits_of_endless {out : List Byte} (h : unitTables (genOf b.gen) s.seed j s.pos = .done ts q)
    (hr : generate (genOf b.gen) s.seed q = .endless r) (hd : j < (pairs d).length)
    (hout : List.zipWith (fun t c => decodeUnit t c.1 c.2) ts (pairs d) = out.map some) :
    decryptUnits b d s = .hung (afterTables s ts r) := by
  have hn : newTable b (afterTables s ts q) = .hung (afterTables s ts r) := newTable_of_endless hr
  obtain ⟨hi, lo, rest, hdrop⟩ := exists_drop_eq_of_lt_pairs hd
  rw [decryptUnits_after h hd.le hout, hdrop, decryptUnits, hn, bind_hung, bind_hung]

end

/-! ### Hung blocks -/

/-- Short of reset, a step of a hung block is one more attempt of the endless draw and the host's move (R76, R207). -/
theorem step_of_hung {s : State} (hh : s.hung = true) (hr : resetAsserted s.hostMoves = false) :
    step s = .next (afterMove { s with toBlock := spin s.toBlock } (spin s.toBlock)) := by
  obtain ⟨hr', _⟩ | ⟨f, rest, ⟨_, hn, _⟩, _⟩ | ⟨_, _, hstep⟩ := step_cases s
  · exact absurd (hr.symm.trans hr') (by decide)
  · exact absurd (hh.symm.trans hn) (by decide)
  · rw [hstep, if_pos hh]
    rfl

end Sys2Proof.Machine

namespace Sys2Proof.KeystreamObligations

open Sys2Proof.Machine Sys2Proof.Safety

/-! ### The statements -/

/-- Settles O3, from the first accepted word of a draw. -/
theorem drawAnswersTheFirstAcceptedWord : Obligations.DrawAnswersTheFirstAcceptedWord := by
  intro n s
  refine ⟨rfl, fun hn => ?_, fun hn hs => ?_, fun a hn hs ha hfirst => ?_⟩
  · rw [exec_draw_zero s hn]
    rfl
  · rw [exec_draw_noSeed hn hs]
    rfl
  · exact exec_draw_of_done hn hs (nextBounded_of_first_accepted ha hfirst)

/-- Settles O4: 2^j is a range of 32 bits, and a draw over it takes one word. -/
theorem drawOfAPowerOfTwoTakesOneWord : Obligations.DrawOfAPowerOfTwoTakesOneWord := by
  intro j s hj hs
  have hval : (BitVec.ofNat 32 (2 ^ j)).toNat = 2 ^ j :=
    Nat.mod_eq_of_lt (Nat.pow_lt_pow_right Nat.one_lt_two hj)
  have hn : BitVec.ofNat 32 (2 ^ j) ≠ 0 := fun h0 =>
    (Nat.two_pow_pos j).ne' (hval.symm.trans (congrArg BitVec.toNat h0))
  refine exec_draw_of_done hn hs ?_
  rw [hval]
  exact nextBounded_two_pow s.gen s.seed j s.pos

/-- Settles O5: the draw of DRAW is endless, and the unit loops of ENCR and DECR hang at the endless table. -/
theorem drawsThatNeverAcceptHang : Obligations.DrawsThatNeverAcceptHang := by
  intro s hs
  refine ⟨fun n hn hnone => ?_, fun p q r j ts d hts hr => ?_⟩
  · exact exec_draw_of_endless hn hs ((nextBounded_eq_endless_iff ..).2 ⟨rfl, fun _ _ => hnone _⟩)
  · have hlen := length_of_unitTables hts
    have hts' : unitTables (genOf s.build.gen) (s.setPos p).seed j (s.setPos p).pos = .done ts q := hts
    refine ⟨fun hd => ?_, fun out heven hd hout => ?_⟩
    · rw [exec_encr_seeded p d hs, onBlock_eq, encryptUnits_of_endless hts' hr hd, ← hlen]
      rfl
    · rw [exec_decr_seeded p heven hs, onBlock_eq, decryptUnits_of_endless hts' hr hd hout, ← hlen]
      rfl

/-- Settles O6: after SEEK and the taking of its response, all that a draw depends on is the same. -/
theorem drawAfterSeekIgnoresThePast : Obligations.DrawAfterSeekIgnoresThePast := by
  intro p n s a b u v hseed hbuild hs hu hpos hrsp ha hb hv
  rw [exec_seek_seeded p hs] at ha
  cases ha
  exact exec_draw_congr hb hv hbuild hseed hpos hrsp hs hu

/-- Settles O7. -/
theorem drawsEndExactlyWhereAWordIsAccepted : Obligations.DrawsEndExactlyWhereAWordIsAccepted := by
  intro g seed n p h1 h32
  refine ⟨nextBounded_ends_iff g seed n p, fun _ _ => nextBounded_lt, ?_, fun hg => ?_⟩
  · rintro j rfl
    exact ⟨_, nextBounded_two_pow g seed j p⟩
  · exact (nextBounded_ends_iff g seed n p).2 (exists_accepted_of_live hg seed p h1 h32)

/-- Settles O1. -/
theorem ldseedConstructsTheKeystream : Obligations.LdseedConstructsTheKeystream := by
  intro k s
  rw [exec_ldseed]
  exact ⟨rfl, rfl⟩

/-- Settles O2, by the two cases of SEEK. -/
theorem seekMovesThePosition : Obligations.SeekMovesThePosition := by
  intro p s
  refine ⟨rfl, fun hs => ?_, fun hs => ?_⟩
  · rw [exec_seek_seeded p hs]
    rfl
  · rw [exec_seek_noSeed p hs]
    rfl

/-- Settles O55: the step is the host's move on the block whose draw went on. -/
theorem hungBlockWaitsForReset : Obligations.HungBlockWaitsForReset := by
  intro s f rest hh
  refine ⟨fun h => ?_, fun h => ?_, fun h => ?_⟩ <;> rw [step_of_hung hh (by rw [h]; rfl)]
  · exact congrArg _ (afterMove_of_noMove (s := { s with toBlock := spin s.toBlock }) h)
  · exact congrArg _ (afterMove_of_take (s := { s with toBlock := spin s.toBlock }) h)
  · exact congrArg _ (afterMove_of_send (s := { s with toBlock := spin s.toBlock }) h)

end Sys2Proof.KeystreamObligations

end

/-!
The permutation table (spec/41_permutation_table.md): IsPerm as a rearrangement of 0..15, the rounds of Generate written out as
draws from a shrinking pool, the bytes of a packed table, and what GENTAB, LDTAB and the commands on the table make of it.
-/

section

namespace Sys2Proof

/-! ### Packed tables -/

/-- Byte j of packed bytes holds the entries 2j, in its high four bits, and 2j+1, in its low four (R36). -/
theorem getElem?_unpackNibbles {s : List Byte} {j : Nat} {b : Byte} (h : s[j]? = some b) :
    (unpackNibbles s)[2 * j]? = some (b.extractLsb' 4 4) ∧ (unpackNibbles s)[2 * j + 1]? = some (b.extractLsb' 0 4) := by
  induction s generalizing j with
  | nil => cases h
  | cons c s ih =>
    cases j with
    | zero => cases h; exact ⟨rfl, rfl⟩
    | succ i => exact ih h

/-- A byte is its high four bits times 16 plus its low four. -/
theorem toNat_eq_nibbles (b : Byte) : b.toNat = (b.extractLsb' 4 4).toNat * 16 + (b.extractLsb' 0 4).toNat := by
  rw [BitVec.extractLsb'_toNat, BitVec.extractLsb'_toNat, Nat.shiftRight_eq_div_pow]
  omega

theorem length_packTable (t : Table) : (packTable t).length = 8 := by
  rw [packTable, Laws.FrameShape.length_packNibbles, Vector.length_toList]

theorem unpackNibbles_packTable (t : Table) : unpackNibbles (packTable t) = t.toList :=
  unpackNibbles_packNibbles (by rw [Vector.length_toList])

/-- The value of byte j of a packed table (R97). -/
theorem toNat_of_getElem?_packTable {t : Table} {j : Nat} (hj : j < 8) {b : Byte} (h : (packTable t)[j]? = some b) :
    b.toNat = t[2 * j].toNat * 16 + t[2 * j + 1].toNat := by
  obtain ⟨hhi, hlo⟩ := getElem?_unpackNibbles h
  rw [unpackNibbles_packTable, Vector.getElem?_toList, Vector.getElem?_eq_getElem (by omega), Option.some.injEq] at hhi hlo
  rw [hhi, hlo]
  exact toNat_eq_nibbles b

end Sys2Proof

namespace Sys2Proof.Machine

/-! ### IsPerm -/

theorem count_fullPool (v : Nibble) : fullPool.count v = 1 := by
  revert v
  decide

theorem mem_fullPool (v : Nibble) : v ∈ fullPool :=
  List.count_pos_iff.1 (count_fullPool v ▸ Nat.one_pos)

theorem isPerm_iff_count (t : Table) : isPerm t = true ↔ ∀ v : Nibble, t.toList.count v = 1 := by
  simp [isPerm, mem_fullPool]

/-- IsPerm says that the table is a rearrangement of 0..15. -/
theorem isPerm_iff_perm (t : Table) : isPerm t = true ↔ t.toList.Perm fullPool := by
  simp only [isPerm_iff_count, List.perm_iff_count, count_fullPool]

/-- Sixteen entries without repetition leave no value out. -/
theorem isPerm_iff_nodup (t : Table) : isPerm t = true ↔ t.toList.Nodup := by
  rw [isPerm_iff_perm]
  constructor
  · exact fun h => h.nodup_iff.2 (by decide)
  · intro h
    have hsub : t.toList.Subperm fullPool := h.subperm fun v _ => mem_fullPool v
    exact hsub.perm_of_length_le (by rw [Vector.length_toList]; rfl)

/-! ### The rounds of Generate -/

/-- The sequence that is `a` and then `f`. -/
def startingWith {α : Type} (a : α) (f : Nat → α) (j : Nat) : α :=
  match j with
  | 0 => a
  | i + 1 => f i

/-- Round `j` of `m` rounds (R92): the draw at `pos j`, of the size the pool has then, gives `idx j`; entry `j` of `l` is the
pool's element there; and the pool closes up in order. -/
structure RoundAt (g : Gen) (seed : Seed) (m : Nat) (l : List Nibble) (pool : Nat → List Nibble) (idx : Nat → Nat)
    (pos : Nat → Position) (j : Nat) : Prop where
  draws  : nextBounded g seed (m - j) (pos j) = .done (idx j) (pos (j + 1))
  takes  : (pool j)[idx j]? = l[j]?
  closes : pool (j + 1) = (pool j).take (idx j) ++ (pool j).drop (idx j + 1)

/-- `m` rounds that empty `start` into `l`, beginning with POS at `p` and ending with it at `q`. -/
def RoundsGive (g : Gen) (seed : Seed) (m : Nat) (start : List Nibble) (p : Position) (l : List Nibble) (q : Position) : Prop :=
  l.length = m ∧ ∃ (pool : Nat → List Nibble) (idx : Nat → Nat) (pos : Nat → Position),
    pool 0 = start ∧ pos 0 = p ∧ pos m = q ∧ ∀ j < m, RoundAt g seed m l pool idx pos j

section
variable {g : Gen} {seed : Seed} {k : Nat} {start l : List Nibble} {p q : Position}

/-- A later round of `k + 1` is a round of the `k` that follow the first. -/
theorem roundAt_succ_iff {x : Nibble} {pool : Nat → List Nibble} {idx : Nat → Nat} {pos : Nat → Position} {j : Nat} :
    RoundAt g seed (k + 1) (x :: l) pool idx pos (j + 1) ↔
      RoundAt g seed k l (fun i => pool (i + 1)) (fun i => idx (i + 1)) (fun i => pos (i + 1)) j := by
  have hsize : k + 1 - (j + 1) = k - j := Nat.add_sub_add_right k 1 j
  constructor
  · rintro ⟨hdraw, htake, hclose⟩
    exact ⟨hsize ▸ hdraw, htake, hclose⟩
  · rintro ⟨hdraw, htake, hclose⟩
    exact ⟨hsize ▸ hdraw, htake, hclose⟩

theorem roundsGive_zero_iff : RoundsGive g seed 0 start p l q ↔ l = [] ∧ p = q := by
  constructor
  · rintro ⟨hl, _, _, _, _, rfl, rfl, _⟩
    exact ⟨List.length_eq_zero_iff.1 hl, rfl⟩
  · rintro ⟨rfl, rfl⟩
    exact ⟨rfl, fun _ => start, fun _ => 0, fun _ => p, rfl, rfl, rfl, nofun⟩

/-- The first of the rounds, and the others on the pool without the element it took. -/
theorem roundsGive_succ_iff : RoundsGive g seed (k + 1) start p l q ↔
    ∃ i r x rest, nextBounded g seed (k + 1) p = .done i r ∧ start[i]? = some x ∧
      RoundsGive g seed k (start.eraseIdx i) r rest q ∧ l = x :: rest := by
  constructor
  · rintro ⟨hl, pool, idx, pos, rfl, rfl, rfl, hround⟩
    obtain ⟨x, rest, rfl⟩ := List.exists_cons_of_length_eq_add_one hl
    obtain ⟨⟨hdraw, htake, hclose⟩, hlater⟩ := Nat.forall_lt_succ_left.1 hround
    have hpool : pool 1 = (pool 0).eraseIdx (idx 0) := hclose.trans (List.eraseIdx_eq_take_drop_succ ..).symm
    have hrest : RoundsGive g seed k ((pool 0).eraseIdx (idx 0)) (pos 1) rest (pos (k + 1)) :=
      ⟨Nat.succ.inj hl, _, _, _, hpool, rfl, rfl, fun j hj => roundAt_succ_iff.1 (hlater j hj)⟩
    exact ⟨idx 0, pos 1, x, rest, hdraw, htake, hrest, rfl⟩
  · rintro ⟨i, r, x, rest, hdraw, htake, ⟨hl, pool, idx, pos, hpool, rfl, rfl, hlater⟩, rfl⟩
    refine ⟨congrArg (· + 1) hl, startingWith start pool, startingWith i idx, startingWith p pos, rfl, rfl, rfl,
      Nat.forall_lt_succ_left.2 ⟨⟨hdraw, htake, ?_⟩, fun j hj => roundAt_succ_iff.2 (hlater j hj)⟩⟩
    exact hpool.trans (List.eraseIdx_eq_take_drop_succ ..)

end

/-- The rounds of Generate, on a pool with an element for each, are the rounds of R92. -/
theorem generateRounds_eq_done_iff {g : Gen} {seed : Seed} {m : Nat} {start l : List Nibble} {p q : Position}
    (hm : start.length = m) : generateRounds g seed m start p = .done l q ↔ RoundsGive g seed m start p l q := by
  induction m generalizing start l p with
  | zero => simp only [generateRounds, Drawn.done.injEq, roundsGive_zero_iff, eq_comm]
  | succ k ih =>
    have hindex {i : Nat} {r : Position} (h : nextBounded g seed (k + 1) p = .done i r) : i < start.length :=
      hm ▸ nextBounded_lt h
    have hlen {i : Nat} (hi : i < start.length) : (start.eraseIdx i).length = k := by
      rw [List.length_eraseIdx_of_lt hi, hm, Nat.add_sub_cancel]
    rw [generateRounds_succ_done_iff, roundsGive_succ_iff]
    constructor
    · rintro ⟨i, r, rest, hdraw, hrest, rfl⟩
      have hi := hindex hdraw
      exact ⟨i, r, _, rest, hdraw, by simp [hi], (ih (hlen hi)).1 hrest, rfl⟩
    · rintro ⟨i, r, x, rest, hdraw, htake, hrest, rfl⟩
      exact ⟨i, r, rest, hdraw, (ih (hlen (hindex hdraw))).2 hrest, by simp [htake]⟩

/-- A table is the one made of its entries. -/
theorem tableOfList_toList (t : Table) : tableOfList t.toList = t :=
  Vector.toList_inj.1 (toList_tableOfList t.toList t.length_toList)

/-- Generate gives the table whose entries its sixteen rounds give. -/
theorem generate_eq_done_iff_roundsGive (g : Gen) (seed : Seed) (p q : Position) (t : Table) :
    generate g seed p = .done t q ↔ RoundsGive g seed 16 fullPool p t.toList q := by
  have hrounds (l : List Nibble) : generateRounds g seed 16 fullPool p = .done l q ↔ RoundsGive g seed 16 fullPool p l q :=
    generateRounds_eq_done_iff rfl
  simp only [generate_eq_done_iff, hrounds]
  constructor
  · rintro ⟨l, hl, rfl⟩
    have ⟨hlen, _⟩ := hl
    rwa [toList_tableOfList l hlen]
  · exact fun h => ⟨_, h, (tableOfList_toList t).symm⟩

/-! ### The commands on the table -/

section
variable {s : State} {q : Position}

/-- GENTAB where Generate ends (R90). -/
theorem exec_gentab_of_done {t : Table} (hs : s.seedValid = true) (h : generate s.gen s.seed s.pos = .done t q) :
    exec .gentab s = .next { s with pos := q, table := t, tableValid := true, rspPort := some (0x00 :: packTable t) } := by
  rw [exec_gentab_seeded hs, onBlock_eq, newTable_of_done (s := s.toBlock) h]
  rfl

/-- GENTAB where Generate never ends (R76, R90): TABLE is not written. -/
theorem exec_gentab_of_endless (hs : s.seedValid = true) (h : generate s.gen s.seed s.pos = .endless q) :
    exec .gentab s = .next { s with pos := q, hung := true } := by
  rw [exec_gentab_seeded hs, onBlock_eq, newTable_of_endless (s := s.toBlock) h]
  rfl

/-- Whatever a command would do with the table, one that is no permutation refuses it (U6). -/
theorem onBlock_withTable_notPerm (k : Block → Table → Host.Outcome Block Fault Refusal) (hv : s.tableValid = true)
    (hp : isPerm s.table = false) : onBlock s (fun _ a => withTable a (k a)) = .refused .tableNotPermutation := by
  rw [onBlock_eq, withTable_notPerm _ hv hp, mapNext_refused]

end

end Sys2Proof.Machine

namespace Sys2Proof.PermTableObligations

open Sys2Proof.Machine

/-! ### The statements -/

/-- Settles O10: the rounds of `RoundsGive` with the entries of the table. -/
theorem generateDrawsFromAShrinkingPool : Obligations.GenerateDrawsFromAShrinkingPool := by
  intro g seed p q t
  rw [generate_eq_done_iff_roundsGive]
  have hentry (j : Fin 16) : t.toList[j.val]? = some t[j] := by simp
  constructor
  · rintro ⟨_, pool, idx, pos, hpool, hp, hq, hround⟩
    refine ⟨pool, idx, pos, hpool, hp, hq, fun j => ?_⟩
    obtain ⟨hdraw, htake, hclose⟩ := hround j j.isLt
    exact ⟨hdraw, htake.trans (hentry j), hclose⟩
  · rintro ⟨pool, idx, pos, hpool, hp, hq, hround⟩
    refine ⟨t.length_toList, pool, idx, pos, hpool, hp, hq, fun j hj => ?_⟩
    obtain ⟨hdraw, htake, hclose⟩ := hround ⟨j, hj⟩
    exact ⟨hdraw, htake.trans (hentry ⟨j, hj⟩).symm, hclose⟩

/-- Settles O9, by the cases of GENTAB. -/
theorem gentabKeepsAndAnswersTheTable : Obligations.GentabKeepsAndAnswersTheTable := by
  intro s
  refine ⟨rfl, fun hs => ?_, fun t q hs h => exec_gentab_of_done hs h, fun q hs h => exec_gentab_of_endless hs h⟩
  rw [exec_gentab_noSeed hs]
  rfl

/-- Settles O11. -/
theorem isPermIsEveryValueOnce : Obligations.IsPermIsEveryValueOnce :=
  fun t => ⟨isPerm_iff_count t, isPerm_iff_nodup t⟩

/-- Settles O12: the rounds rearrange the pool. -/
theorem generateGivesAPermutation : Obligations.GenerateGivesAPermutation :=
  fun _ _ _ _ _ => isPerm_of_generate

/-- Settles O14. -/
theorem packedTableLayout : Obligations.PackedTableLayout :=
  fun t => ⟨length_packTable t, fun j _ => toNat_of_getElem?_packTable j.isLt, (readT8_eq_some_iff _ t).2 rfl⟩

/-- Settles O13, by the two cases of LDTAB. -/
theorem ldtabLoadsPermutationsOnly : Obligations.LdtabLoadsPermutationsOnly := by
  intro t s
  refine ⟨rfl, fun h => ?_, fun h => ?_⟩
  · rw [exec_ldtab_perm s h]
    rfl
  · rw [exec_ldtab_notPerm s h]
    rfl

/-- Settles O27: the four commands go through `withTable`. -/
theorem tableCommandsRefuseNonPermutations : Obligations.TableCommandsRefuseNonPermutations := by
  intro s u b hv hp
  rw [exec_permw, exec_unpermw, exec_enc, exec_dec]
  exact ⟨onBlock_withTable_notPerm _ hv hp, onBlock_withTable_notPerm _ hv hp, onBlock_withTable_notPerm _ hv hp,
    onBlock_withTable_notPerm _ hv hp⟩

end Sys2Proof.PermTableObligations

end

/-!
The bit-permutation cipher (spec/42_bit_permutation_cipher.md): Double and its check, Perm16 and Unperm16 by where they place
each bit, the Units that decode, and the four commands on the current table.
-/

section

namespace Sys2Proof.Machine

open Sys2Proof.Safety

/-! ### Two-byte values -/

/-- The two bytes of a 16-bit value are those of its number (R103). -/
theorem be2_eq_beBytes (w : UnitValue) : be2 w = beBytes 2 w.toNat := by
  have := w.isLt
  simp only [be2, beBytes, List.cons.injEq, and_true, ← BitVec.toNat_inj, BitVec.extractLsb'_toNat, BitVec.toNat_ofNat,
    Nat.shiftRight_eq_div_pow]
  omega

theorem ofBe2_halves (w : UnitValue) : ofBe2 (w.extractLsb' 8 8) (w.extractLsb' 0 8) = w := (ofBe2_eq_iff _ _ w).2 rfl

/-! ### Double and Check -/

/-- Double is the complement and the byte, read as two bytes. -/
theorem double_eq_ofBe2 (b : Byte) : double b = ofBe2 (~~~b) b := rfl

theorem toNat_not_byte (b : Byte) : (~~~b).toNat = 255 - b.toNat := BitVec.toNat_not

@[simp] theorem extractLsb'_low_double (b : Byte) : (double b).extractLsb' 0 8 = b := extractLsb'_low_ofBe2 _ b

@[simp] theorem extractLsb'_high_double (b : Byte) : (double b).extractLsb' 8 8 = ~~~b := extractLsb'_high_ofBe2 _ b

theorem double_injective : Function.Injective double :=
  Function.LeftInverse.injective extractLsb'_low_double

/-- Check passes for a value exactly where it is Double of its low byte (R104). -/
theorem check_iff_eq_double (u : UnitValue) : check u = true ↔ u = double (u.extractLsb' 0 8) := by
  rw [eq_comm (a := u), double_eq_ofBe2, ofBe2_eq_iff, check, beq_iff_eq, be2]
  constructor
  · exact fun h => by rw [h]
  · exact fun h => (List.cons.inj h).1.symm

/-- Check passes exactly for the values of Double (R104). -/
theorem check_iff_exists_double (u : UnitValue) : check u = true ↔ ∃ b, u = double b := by
  constructor
  · exact fun h => ⟨_, (check_iff_eq_double u).1 h⟩
  · rintro ⟨b, rfl⟩
    simp [check]

theorem check_iff_high_eq (u : UnitValue) : check u = true ↔ (u.extractLsb' 8 8).toNat = 255 - (u.extractLsb' 0 8).toNat := by
  rw [← toNat_not_byte, BitVec.toNat_inj, check, beq_iff_eq]

/-- The low bits of Double are the byte's. -/
theorem getLsbD_double_low {b : Byte} {k : Nat} (hk : k < 8) : (double b).getLsbD k = b.getLsbD k := by
  conv_rhs => rw [← extractLsb'_low_double b, BitVec.getLsbD_extractLsb', decide_eq_true hk, Bool.true_and, Nat.zero_add]

/-- The high bits of Double are the complements of the byte's. -/
theorem getLsbD_double_high {b : Byte} {k : Nat} (hk : k < 8) : (double b).getLsbD (k + 8) = !b.getLsbD k := by
  have h := congrArg (·.getLsbD k) (extractLsb'_high_double b)
  simpa only [BitVec.getLsbD_extractLsb', BitVec.getLsbD_not, decide_eq_true hk, Bool.true_and, Nat.add_comm 8] using h

/-- A value with a single one-bit. -/
theorem getLsbD_one_shiftLeft {n j : Nat} (hj : j < n) (k : Nat) : (1#n <<< j).getLsbD k = decide (j = k) := by
  rw [← BitVec.twoPow_eq, BitVec.getLsbD_twoPow, decide_eq_true hj, Bool.true_and]

/-- Flipping bit i of the byte flips bits i and i + 8 of its Double. -/
theorem double_flip {b : Byte} {i : Nat} (hi : i < 8) :
    double (b ^^^ 1#8 <<< i) = double b ^^^ 1#16 <<< i ^^^ 1#16 <<< (i + 8) := by
  have h16 : i < 16 := by omega
  have h8 : i + 8 < 16 := by omega
  refine BitVec.eq_of_getLsbD_eq fun j hj => ?_
  obtain hj | ⟨k, rfl, hk⟩ : j < 8 ∨ ∃ k, j = k + 8 ∧ k < 8 := by
    by_cases h : j < 8
    · exact .inl h
    · exact .inr ⟨j - 8, by omega, by omega⟩
  · have hij : i + 8 ≠ j := by omega
    simp only [BitVec.getLsbD_xor, getLsbD_double_low hj, getLsbD_one_shiftLeft hi, getLsbD_one_shiftLeft h16,
      getLsbD_one_shiftLeft h8, decide_eq_false hij, Bool.xor_false]
  · have hik : i ≠ k + 8 := by omega
    simp only [BitVec.getLsbD_xor, getLsbD_double_high hk, getLsbD_one_shiftLeft hi, getLsbD_one_shiftLeft h16,
      getLsbD_one_shiftLeft h8, decide_eq_false hik, Bool.xor_false, Nat.add_right_cancel_iff, Bool.not_xor]

/-- No Double is another one with a single bit flipped: bits k and k + 8 of a Double differ. -/
theorem double_ne_flip (b c : Byte) {i : Nat} (hi : i < 16) : double c ≠ double b ^^^ 1#16 <<< i := by
  intro h
  have hk : i % 8 < 8 := Nat.mod_lt i (by decide)
  have hlow := congrArg (·.getLsbD (i % 8)) h
  have hhigh := congrArg (·.getLsbD (i % 8 + 8)) h
  simp only [BitVec.getLsbD_xor, getLsbD_double_low hk, getLsbD_double_high hk, getLsbD_one_shiftLeft hi] at hlow hhigh
  obtain hil | hih : i = i % 8 ∨ i = i % 8 + 8 := by omega
  · have hih : ¬ i = i % 8 + 8 := by omega
    rw [decide_eq_true hil] at hlow
    rw [decide_eq_false hih] at hhigh
    simp [hlow] at hhigh
  · have hil : ¬ i = i % 8 := by omega
    rw [decide_eq_false hil] at hlow
    rw [decide_eq_true hih] at hhigh
    simp [hlow] at hhigh

/-- Of the bits k and k + 8 of a Double exactly one is set, so eight are (R117). -/
theorem weight_double (b : Byte) : weight (double b) = 8 := by
  have hhigh : ((List.range 8).map (8 + ·)).countP (double b).getLsbD = (List.range 8).countP fun k => !b.getLsbD k := by
    rw [List.countP_map]
    refine List.countP_congr fun k hk => ?_
    rw [Function.comp_apply, Nat.add_comm, getLsbD_double_high (List.mem_range.1 hk)]
  have hlow : (List.range 8).countP (double b).getLsbD = (List.range 8).countP b.getLsbD :=
    List.countP_congr fun k hk => by rw [getLsbD_double_low (List.mem_range.1 hk)]
  have hsum := List.length_eq_countP_add_countP b.getLsbD (l := List.range 8)
  calc weight (double b)
      = (List.range 8 ++ (List.range 8).map (8 + ·)).countP (double b).getLsbD := rfl
    _ = (List.range 8).countP b.getLsbD + (List.range 8).countP fun k => !b.getLsbD k := by
        rw [List.countP_append, hlow, hhigh]
    _ = 8 := by simpa using hsum.symm

/-! ### Perm16 and Unperm16 -/

/-- Bit i of Unperm16(T, w) is bit T[i] of w (R102). -/
theorem getLsbD_unperm16 (t : Table) (w : UnitValue) (i : Fin 16) :
    (unperm16 t w).getLsbD i.val = w.getLsbD t[i].toNat := by
  rw [unperm16, getLsbD_placeBits, List.any_map, Bool.eq_iff_iff, List.any_eq_true]
  simp [Fin.val_inj]

section
variable {t : Table} (h : isPerm t = true)
include h

/-- No two entries of a permutation are the same. -/
theorem toNat_entry_inj_iff {i j : Fin 16} : t[i].toNat = t[j].toNat ↔ i = j := by
  have hnodup := ((isPerm_iff_nodup t).1 h).getElem_inj_iff (i := i.val) (hi := by simp) (j := j.val) (hj := by simp)
  simpa only [Vector.getElem_toList, Fin.val_inj, BitVec.toNat_inj, Fin.getElem_fin] using hnodup

/-- Every bit position is an entry of a permutation. -/
theorem exists_entry (j : Nat) : j < 16 → ∃ i : Fin 16, t[i].toNat = j := by
  intro hj
  have hmem : BitVec.ofNat 4 j ∈ t.toList := ((isPerm_iff_perm t).1 h).mem_iff.2 (mem_fullPool _)
  obtain ⟨i, hi, hv⟩ := List.mem_iff_getElem.1 hmem
  rw [Vector.length_toList] at hi
  refine ⟨⟨i, hi⟩, ?_⟩
  simpa [Nat.mod_eq_of_lt hj] using congrArg BitVec.toNat hv

/-- Bit T[i] of Perm16(T, u) is bit i of u (R101). -/
theorem getLsbD_perm16 (u : UnitValue) (i : Fin 16) : (perm16 t u).getLsbD t[i].toNat = u.getLsbD i.val := by
  rw [perm16, getLsbD_placeBits, List.any_map, Bool.eq_iff_iff, List.any_eq_true]
  simp only [Function.comp_apply, List.mem_finRange, true_and, Bool.and_eq_true, decide_eq_true_eq, toNat_entry_inj_iff h,
    exists_eq_right]

/-- The bits at the entries of a permutation are all the bits of a value. -/
theorem eq_of_getLsbD_entries {v w : UnitValue} (hvw : ∀ i : Fin 16, v.getLsbD t[i].toNat = w.getLsbD t[i].toNat) : v = w := by
  refine BitVec.eq_of_getLsbD_eq fun j hj => ?_
  obtain ⟨i, rfl⟩ := exists_entry h _ hj
  exact hvw i

/-- A value is Perm16(T, u) exactly where it has bit i of u at T[i] for every i (R101). -/
theorem perm16_eq_iff (u w : UnitValue) : perm16 t u = w ↔ ∀ i : Fin 16, w.getLsbD t[i].toNat = u.getLsbD i.val := by
  constructor
  · rintro rfl
    exact getLsbD_perm16 h u
  · exact fun hw => eq_of_getLsbD_entries h fun i => (getLsbD_perm16 h u i).trans (hw i).symm

theorem perm16_unperm16 (w : UnitValue) : perm16 t (unperm16 t w) = w :=
  (perm16_eq_iff h _ w).2 fun i => (getLsbD_unperm16 t w i).symm

theorem unperm16_perm16 (u : UnitValue) : unperm16 t (perm16 t u) = u :=
  BitVec.eq_of_getLsbD_eq fun i hi => (getLsbD_unperm16 t _ ⟨i, hi⟩).trans (getLsbD_perm16 h u ⟨i, hi⟩)

theorem perm16_bijective : Function.Bijective (perm16 t) :=
  Function.bijective_iff_has_inverse.2 ⟨unperm16 t, unperm16_perm16 h, perm16_unperm16 h⟩

/-- Flipping bit i before Perm16 is flipping bit T[i] after it. -/
theorem perm16_flip (u : UnitValue) (i : Fin 16) :
    perm16 t (u ^^^ 1#16 <<< i.val) = perm16 t u ^^^ 1#16 <<< t[i].toNat := by
  refine (perm16_eq_iff h _ _).2 fun k => ?_
  simp only [BitVec.getLsbD_xor, getLsbD_perm16 h, getLsbD_one_shiftLeft i.isLt, getLsbD_one_shiftLeft t[i].isLt,
    toNat_entry_inj_iff h, Fin.val_inj]

/-- The entries of a permutation are the bit positions in another order, so Perm16 keeps the number of one-bits (R117). -/
theorem weight_perm16 (u : UnitValue) : weight (perm16 t u) = weight u := by
  have hentries : t.toList = (List.finRange 16).map fun i => t[i] := by
    refine List.ext_getElem (by simp) fun i _ _ => by simp
  have hpositions : (t.toList.map BitVec.toNat).Perm (List.range 16) := ((isPerm_iff_perm t).1 h).map BitVec.toNat
  calc weight (perm16 t u)
      = (t.toList.map BitVec.toNat).countP (perm16 t u).getLsbD := (hpositions.countP_eq _).symm
    _ = ((List.finRange 16).map Fin.val).countP u.getLsbD := by
        rw [hentries, List.map_map, List.countP_map, List.countP_map]
        exact List.countP_congr fun i _ => by simp only [Function.comp_apply, getLsbD_perm16 h]
    _ = weight u := by rw [List.map_coe_finRange_eq_range]; rfl

end

/-! ### Encoded Units -/

/-- Two bytes decode to `b` exactly where they un-permute to Double(b) (R106). -/
theorem decodeUnit_eq_some_iff (t : Table) (hi lo b : Byte) :
    decodeUnit t hi lo = some b ↔ unperm16 t (ofBe2 hi lo) = double b := by
  simp only [decodeUnit, Option.ite_none_right_eq_some, Option.some.injEq]
  constructor
  · rintro ⟨hc, rfl⟩
    exact (check_iff_eq_double _).1 hc
  · intro hu
    rw [hu]
    exact ⟨(check_iff_exists_double _).2 ⟨b, rfl⟩, extractLsb'_low_double b⟩

section
variable {t : Table} (h : isPerm t = true)
include h

/-- Under a permutation two bytes decode to `b` exactly where they are Perm16 of Double(b). -/
theorem decodeUnit_eq_some_iff_perm16 (hi lo b : Byte) :
    decodeUnit t hi lo = some b ↔ ofBe2 hi lo = perm16 t (double b) := by
  rw [decodeUnit_eq_some_iff]
  constructor
  · intro hu
    rw [← hu, perm16_unperm16 h]
  · intro hw
    rw [hw, unperm16_perm16 h]

/-- Under a permutation two bytes decode to `b` exactly where they are its encoding (R115, R117). -/
theorem decodeUnit_eq_some_iff_encodeUnit (hi lo b : Byte) :
    decodeUnit t hi lo = some b ↔ [hi, lo] = encodeUnit t b := by
  rw [decodeUnit_eq_some_iff_perm16 h, ofBe2_eq_iff, encodeUnit]

theorem weight_of_decodeUnit {hi lo b : Byte} (hb : decodeUnit t hi lo = some b) : weight (ofBe2 hi lo) = 8 := by
  rw [(decodeUnit_eq_some_iff_perm16 h hi lo b).1 hb, weight_perm16 h, weight_double]

/-- An encoded Unit with one bit flipped is Corrupt (R118). -/
theorem decodeUnit_flip {b hi lo : Byte} {j : Nat} (hj : j < 16)
    (hw : ofBe2 hi lo = perm16 t (double b) ^^^ 1#16 <<< j) : decodeUnit t hi lo = none := by
  obtain ⟨i, rfl⟩ := exists_entry h _ hj
  refine Option.eq_none_iff_forall_ne_some.2 fun c hc => double_ne_flip b c i.isLt ?_
  rw [decodeUnit_eq_some_iff_perm16 h, hw, ← perm16_flip h] at hc
  exact ((perm16_bijective h).1 hc).symm

/-- An encoded Unit with bits T[i] and T[i+8] flipped decodes, to the byte with bit i flipped (R118). -/
theorem decodeUnit_double_flip {b hi lo : Byte} {i : Nat} (hi8 : i < 8)
    (hw : ofBe2 hi lo = perm16 t (double b) ^^^ 1#16 <<< t[i].toNat ^^^ 1#16 <<< t[i + 8].toNat) :
    decodeUnit t hi lo = some (b ^^^ 1#8 <<< i) := by
  rw [decodeUnit_eq_some_iff_perm16 h, hw, double_flip hi8]
  exact (((perm16_flip h _ ⟨i + 8, by omega⟩).trans (congrArg (· ^^^ _) (perm16_flip h _ ⟨i, by omega⟩)))).symm

end

/-! ### The commands on the current table -/

section
variable {s : State}

/-- Whatever a command would do with the table, without one it is NoTable (R176). -/
theorem onBlock_withTable_noTable (k : Block → Table → Host.Outcome Block Fault Refusal) (hv : s.tableValid = false) :
    onBlock s (fun _ a => withTable a (k a)) = .next { s with rspPort := some [0x04] } := by
  rw [onBlock_eq, withTable_noTable _ hv]
  rfl

/-- A command on a table that is a permutation does what it does with it. -/
theorem onBlock_withTable_perm (k : Block → Table → Host.Outcome Block Fault Refusal) (hv : s.tableValid = true)
    (hp : isPerm s.table = true) : onBlock s (fun _ a => withTable a (k a)) = onBlock s fun _ a => k a a.table :=
  onBlock_congr (withTable_perm (s := s.toBlock) _ hv hp)

theorem exec_permw_perm (u : UnitValue) (hv : s.tableValid = true) (hp : isPerm s.table = true) :
    exec (.permw u) s = .next { s with rspPort := some (0x00 :: be2 (perm16 s.table u)) } :=
  (exec_permw u s).trans (onBlock_withTable_perm _ hv hp)

theorem exec_unpermw_perm (w : UnitValue) (hv : s.tableValid = true) (hp : isPerm s.table = true) :
    exec (.unpermw w) s = .next { s with rspPort := some (0x00 :: be2 (unperm16 s.table w)) } :=
  (exec_unpermw w s).trans (onBlock_withTable_perm _ hv hp)

theorem exec_enc_perm (b : Byte) (hv : s.tableValid = true) (hp : isPerm s.table = true) :
    exec (.enc b) s = .next { s with rspPort := some (0x00 :: encodeUnit s.table b) } :=
  (exec_enc b s).trans (onBlock_withTable_perm _ hv hp)

/-- DEC where the un-permuted value passes Check (R106, R110). -/
theorem exec_dec_of_check {c : UnitValue} (hv : s.tableValid = true) (hp : isPerm s.table = true)
    (hc : check (unperm16 s.table c) = true) :
    exec (.dec c) s = .next { s with rspPort := some [0x00, (unperm16 s.table c).extractLsb' 0 8] } := by
  rw [exec_dec, onBlock_withTable_perm _ hv hp, onBlock_eq]
  simp [decodeUnit, ofBe2_halves, hc, respondOk_eq]

/-- DEC where the un-permuted value fails Check (R106, R110). -/
theorem exec_dec_of_not_check {c : UnitValue} (hv : s.tableValid = true) (hp : isPerm s.table = true)
    (hc : check (unperm16 s.table c) = false) : exec (.dec c) s = .next { s with rspPort := some [0x11] } := by
  rw [exec_dec, onBlock_withTable_perm _ hv hp, onBlock_eq]
  simp [decodeUnit, ofBe2_halves, hc, raise_eq, ErrorKind.code]

end

end Sys2Proof.Machine

namespace Sys2Proof.CipherObligations

open Sys2Proof.Machine Sys2Proof.Safety

/-! ### The statements on the cipher's functions -/

/-- Settles O16. -/
theorem permAndUnpermPlaceTheBits : Obligations.PermAndUnpermPlaceTheBits :=
  fun t u w h => ⟨perm16_eq_iff h u w, getLsbD_unperm16 t w⟩

/-- Settles O18. -/
theorem checkPassesExactlyForDoubles : Obligations.CheckPassesExactlyForDoubles :=
  ⟨check_iff_high_eq, check_iff_exists_double, fun _ _ => @double_injective _ _⟩

/-- Settles O19: an encoded Unit is two bytes, and those that decode are the encoded ones. -/
theorem permAndUnpermAreInverse : Obligations.PermAndUnpermAreInverse := fun _ h =>
  ⟨unperm16_perm16 h, perm16_unperm16 h, fun b => ⟨_, _, rfl, (decodeUnit_eq_some_iff_encodeUnit h _ _ b).2 rfl⟩⟩

/-- Settles O20: what decodes is encoded, and so has weight eight. -/
theorem encodedUnitsHaveWeightEight : Obligations.EncodedUnitsHaveWeightEight := by
  intro t h
  refine ⟨weight_double, weight_perm16 h, fun hi lo hw => ?_, decodeUnit_eq_some_iff_encodeUnit h⟩
  exact Option.eq_none_iff_forall_ne_some.2 fun b hb => hw (weight_of_decodeUnit h hb)

/-- Settles O21: a flipped bit goes back through the permutation to a flipped bit of Double(b). -/
theorem singleBitFlipsAreCaught : Obligations.SingleBitFlipsAreCaught := fun _ _ h =>
  ⟨fun j _ _ => decodeUnit_flip h j.isLt, fun i _ _ => decodeUnit_double_flip h i.isLt⟩

/-- Settles O15. -/
theorem doubleIsComplementThenByte : Obligations.DoubleIsComplementThenByte := by
  intro b
  refine ⟨?_, extractLsb'_low_double b, ?_⟩
  · rw [double_eq_ofBe2, toNat_ofBe2, toNat_not_byte]
  · rw [extractLsb'_high_double, toNat_not_byte]

/-- Settles O17. -/
theorem twoByteValuesAreBigEndian : Obligations.TwoByteValuesAreBigEndian :=
  fun w hi lo => ⟨rfl, be2_eq_beBytes w, toNat_ofBe2 hi lo, be2_ofBe2 hi lo⟩

/-! ### The statements on the commands of the current table -/

/-- Settles O24: Perm16 is undone by Unperm16, on the block through the table that LDTAB left. -/
theorem unpermwUndoesPermwOnTheBlock : Obligations.UnpermwUndoesPermwOnTheBlock := by
  intro t h
  refine ⟨perm16_bijective h, fun v s a b _ ha hb => ?_⟩
  rw [exec_ldtab_perm s h] at ha
  cases ha
  rw [exec_permw_perm v rfl h] at hb
  cases hb
  refine ⟨_, _, _, rfl, exec_unpermw_perm _ rfl h, ?_⟩
  simp [ofBe2_halves, unperm16_perm16 h]

/-- Settles O22. -/
theorem permwAnswersThePermutedValue : Obligations.PermwAnswersThePermutedValue := fun u s =>
  ⟨rfl, fun hv => (exec_permw u s).trans (onBlock_withTable_noTable _ hv), exec_permw_perm u⟩

/-- Settles O23. -/
theorem unpermwAnswersTheUnpermutedValue : Obligations.UnpermwAnswersTheUnpermutedValue := fun w s =>
  ⟨rfl, fun hv => (exec_unpermw w s).trans (onBlock_withTable_noTable _ hv), exec_unpermw_perm w⟩

/-- Settles O25. -/
theorem encAnswersTheEncodedUnit : Obligations.EncAnswersTheEncodedUnit := fun b s =>
  ⟨rfl, fun hv => (exec_enc b s).trans (onBlock_withTable_noTable _ hv), exec_enc_perm b⟩

/-- Settles O26, by whether the complement check passes. -/
theorem decAnswersTheByteOrCorrupt : Obligations.DecAnswersTheByteOrCorrupt := fun c s =>
  ⟨rfl, fun hv => (exec_dec c s).trans (onBlock_withTable_noTable _ hv), exec_dec_of_check, exec_dec_of_not_check⟩

end Sys2Proof.CipherObligations

end

/-!
Raw encryption and decryption (spec/42_bit_permutation_cipher.md R111 to R121): the unit loops where every table is generated
and where a pair is Corrupt, what an OK answer of ENCR or DECR says, and their responses as functions of the seed.
-/

section

namespace Sys2Proof.Machine

open Sys2Proof.Safety

/-! ### The data of raw commands -/

theorem length_pairs (d : List Byte) : (pairs d).length = d.length / 2 := by
  induction d using pairs.induct with
  | case1 hi lo rest ih => simp only [pairs, List.length_cons, ih]; omega
  | case2 d hshort =>
    match d, hshort with
    | [], _ => rfl
    | [x], _ => simp [pairs]
    | hi :: lo :: rest, hshort => exact absurd rfl (hshort hi lo rest)

/-- Where pair j lies in the data (R114). -/
theorem exists_drop_eq_of_getElem?_pairs {j : Nat} {d : List Byte} {hi lo : Byte} (h : (pairs d)[j]? = some (hi, lo)) :
    ∃ rest, d.drop (2 * j) = hi :: lo :: rest := by
  induction j generalizing d with
  | zero => match d, h with | _ :: _ :: rest, h => cases h; exact ⟨rest, rfl⟩
  | succ k ih => match d, h with | _ :: _ :: rest, h => exact ih h

/-- The bytes of encoded Units, in order (R113). -/
def encodedUnits (ts : List Table) (d : List Byte) : List Byte :=
  (List.zipWith encodeUnit ts d).flatten

theorem encodedUnits_cons (t : Table) (ts : List Table) (x : Byte) (d : List Byte) :
    encodedUnits (t :: ts) (x :: d) = encodeUnit t x ++ encodedUnits ts d := rfl

/-- Two bytes for each byte (R119). -/
theorem length_encodedUnits {ts : List Table} {d : List Byte} (h : ts.length = d.length) :
    (encodedUnits ts d).length = 2 * d.length := by
  induction ts generalizing d with
  | nil => cases d with | nil => rfl | cons _ _ => cases h
  | cons t ts ih =>
    cases d with
    | nil => cases h
    | cons x d =>
      have hlen : (encodeUnit t x).length = 2 := rfl
      rw [encodedUnits_cons, List.length_append, hlen, ih (Nat.succ.inj h), List.length_cons]
      omega

/-- Bytes 2i and 2i + 1 are the encoding of byte i under table i (R119). -/
theorem take_drop_encodedUnits {ts : List Table} {d : List Byte} {i : Nat} {t : Table} {x : Byte} (ht : ts[i]? = some t)
    (hx : d[i]? = some x) : ((encodedUnits ts d).drop (2 * i)).take 2 = encodeUnit t x := by
  induction i generalizing ts d with
  | zero =>
    match ts, d, ht, hx with
    | _ :: _, _ :: _, ht, hx => cases ht; cases hx; rfl
  | succ k ih =>
    match ts, d, ht, hx with
    | _ :: _, _ :: _, ht, hx => exact ih ht hx

/-- Encoded Units decode, pair by pair, to the bytes they encode (R115, R121). -/
theorem decode_pairs_encodedUnits {ts : List Table} {d : List Byte} (hlen : ts.length = d.length)
    (hperm : ∀ t ∈ ts, isPerm t = true) :
    List.zipWith (fun t c => decodeUnit t c.1 c.2) ts (pairs (encodedUnits ts d)) = d.map some := by
  induction ts generalizing d with
  | nil => cases d with | nil => rfl | cons _ _ => cases hlen
  | cons t ts ih =>
    cases d with
    | nil => cases hlen
    | cons x d =>
      obtain ⟨ht, hts⟩ := List.forall_mem_cons.1 hperm
      exact congrArg₂ List.cons ((decodeUnit_eq_some_iff_encodeUnit ht _ _ x).2 rfl) (ih (Nat.succ.inj hlen) hts)

/-! ### The unit loops -/

/-- The tables of units are permutations (R94). -/
theorem isPerm_of_unitTables {g : Gen} {seed : Seed} {n : Nat} {p q : Position} {ts : List Table}
    (h : unitTables g seed n p = .done ts q) : ∀ t ∈ ts, isPerm t = true := by
  induction n generalizing p ts with
  | zero => cases h; exact nofun
  | succ k ih =>
    obtain ⟨t, r, rest, ht, hrest, rfl⟩ := (unitTables_succ_done_iff g seed k p q ts).1 h
    exact List.forall_mem_cons.2 ⟨isPerm_of_generate ht, ih hrest⟩

/-- Where the tables of units do not all end, there is a first unit whose table does not (R76). -/
theorem exists_endless_unit {g : Gen} {seed : Seed} {n : Nat} {p r : Position} (h : unitTables g seed n p = .endless r) :
    ∃ j < n, ∃ ts q, unitTables g seed j p = .done ts q ∧ generate g seed q = .endless r := by
  induction n generalizing p with
  | zero => cases h
  | succ k ih =>
    cases hg : generate g seed p with
    | endless q =>
      rw [unitTables, hg] at h
      cases h
      exact ⟨0, k.succ_pos, [], p, rfl, hg⟩
    | done t q =>
      have hk : unitTables g seed k q = .endless r := by
        rw [unitTables, hg] at h
        cases hu : unitTables g seed k q with
        | done ts q' => simp [hu] at h
        | endless r' => simpa [hu] using h
      obtain ⟨j, hj, ts, q', hts, hr⟩ := ih hk
      exact ⟨j + 1, Nat.succ_lt_succ hj, t :: ts, q', (unitTables_succ_done_iff ..).2 ⟨t, q, ts, hg, hts, rfl⟩, hr⟩

section
variable {b : Build} {s : Block} {ts : List Table} {d : List Byte} {q : Position}

/-- The loop of `EncryptRaw` where every table ends (R113). -/
theorem encryptUnits_of_done (h : unitTables (genOf b.gen) s.seed d.length s.pos = .done ts q) :
    encryptUnits b d s = .done (encodedUnits ts d) (afterTables s ts q) := by
  rw [encryptUnits_after h le_rfl, List.drop_length, encryptUnits, bind_done, List.append_nil]
  rfl

/-- The loop of `DecryptRaw` where every table ends and every pair decodes (R114). -/
theorem decryptUnits_of_done {out : List Byte} (hd : d.length % 2 = 0)
    (h : unitTables (genOf b.gen) s.seed (d.length / 2) s.pos = .done ts q)
    (hout : List.zipWith (fun t c => decodeUnit t c.1 c.2) ts (pairs d) = out.map some) :
    decryptUnits b d s = .done out (afterTables s ts q) := by
  have hall : d.length ≤ 2 * (d.length / 2) := by omega
  rw [decryptUnits_after h (length_pairs d).ge hout, List.drop_of_length_le hall, decryptUnits, bind_done, List.append_nil]

/-- The loop of `DecryptRaw` at the first pair that is Corrupt: the table of its unit is left (R114, R178). -/
theorem decryptUnits_of_corrupt {out : List Byte} {j : Nat} {t : Table} {r : Position} {hi lo : Byte}
    (h : unitTables (genOf b.gen) s.seed j s.pos = .done ts q) (ht : generate (genOf b.gen) s.seed q = .done t r)
    (hout : List.zipWith (fun t c => decodeUnit t c.1 c.2) ts (pairs d) = out.map some)
    (hpair : (pairs d)[j]? = some (hi, lo)) (hcorrupt : decodeUnit t hi lo = none) :
    decryptUnits b d s = .failed .corrupt (((afterTables s ts q).setPos r).loadTable t) := by
  obtain ⟨hj, _⟩ := List.getElem?_eq_some_iff.1 hpair
  obtain ⟨rest, hdrop⟩ := exists_drop_eq_of_getElem?_pairs hpair
  have hn : newTable b (afterTables s ts q) = .done t (((afterTables s ts q).setPos r).loadTable t) := newTable_of_done ht
  simp only [decryptUnits_after h hj.le hout, hdrop, decryptUnits, hn, bind_done, hcorrupt, bind_failed]

end

/-- A `bind` that has a result: its first part has one, and then its second. -/
theorem bind_eq_done {α β : Type} {r : Ran α} {k : α → Block → Ran β} {y : β} {u : Block} (h : r.bind k = .done y u) :
    ∃ a s, r = .done a s ∧ k a s = .done y u := by
  cases r with
  | done a s => exact ⟨a, s, rfl, h⟩
  | failed e s => cases h
  | hung s => cases h

/-- Decryption that ends has one byte for every two (R119). -/
theorem length_of_decryptUnits {b : Build} {d out : List Byte} {s u : Block} (h : decryptUnits b d s = .done out u) :
    2 * out.length = d.length := by
  induction d, s using decryptUnits.induct generalizing out with
  | case1 s => cases h; rfl
  | case2 s x => cases h
  | case3 s hi lo rest ih =>
    obtain ⟨t, s1, _, hunit⟩ := bind_eq_done h
    cases hx : decodeUnit t hi lo with
    | none => simp [hx] at hunit
    | some x =>
      rw [hx] at hunit
      obtain ⟨ys, s2, hrest, hdone⟩ := bind_eq_done hunit
      cases hdone
      have := ih s1 hrest
      simp only [List.length_cons]
      omega

/-! ### ENCR and DECR -/

section
variable {s t : State} {p q : Position} {d out : List Byte} {ts : List Table}

/-- ENCR where every table ends (R111, R113). -/
theorem exec_encr_of_done (hs : s.seedValid = true) (h : unitTables s.gen s.seed d.length p = .done ts q) :
    exec (.encr p d) s = .next { s with
      pos := q, table := ts.getLastD s.table, tableValid := s.tableValid || !d.isEmpty,
      rspPort := some (0x00 :: encodedUnits ts d) } := by
  have hdata : (!d.isEmpty) = decide (0 < ts.length) := by
    rw [length_of_unitTables h]
    cases d <;> rfl
  rw [exec_encr_seeded p d hs, onBlock_eq, encryptUnits_of_done (s := s.setPos p) h, hdata]
  rfl

/-- DECR where every table ends and every pair decodes (R112, R114). -/
theorem exec_decr_of_done (hd : d.length % 2 = 0) (hs : s.seedValid = true)
    (h : unitTables s.gen s.seed (d.length / 2) p = .done ts q)
    (hout : List.zipWith (fun t c => decodeUnit t c.1 c.2) ts (pairs d) = out.map some) :
    exec (.decr p d) s = .next { s with
      pos := q, table := ts.getLastD s.table, tableValid := s.tableValid || !d.isEmpty, rspPort := some (0x00 :: out) } := by
  have hdata : (!d.isEmpty) = decide (0 < ts.length) := by
    rw [length_of_unitTables h]
    match d, hd with
    | [], _ => rfl
    | _ :: _ :: _, _ => simp
  rw [exec_decr_seeded p hd hs, onBlock_eq, decryptUnits_of_done (s := s.setPos p) hd h hout, hdata]
  rfl

/-- An ENCR that does not hang had every table (R111). -/
theorem exec_encr_inv (hs : s.seedValid = true) (ht : t.hung = false) (h : exec (.encr p d) s = .next t) :
    ∃ ts q, unitTables s.gen s.seed d.length p = .done ts q ∧ t = { s with
      pos := q, table := ts.getLastD s.table, tableValid := s.tableValid || !d.isEmpty,
      rspPort := some (0x00 :: encodedUnits ts d) } := by
  cases hts : unitTables s.gen s.seed d.length p with
  | done ts q =>
    cases (exec_encr_of_done hs hts).symm.trans h
    exact ⟨ts, q, rfl, rfl⟩
  | endless r =>
    obtain ⟨j, hj, ts, q, hts', hr⟩ := exists_endless_unit hts
    rw [exec_encr_seeded p d hs, onBlock_eq, encryptUnits_of_endless (s := s.setPos p) hts' hr hj] at h
    cases h
    cases ht

end

theorem code_ne_ok (e : ErrorKind) : e.code ≠ 0x00 := by
  cases e <;> decide

/-- A command that answers OK came to a result, the payload (R52). -/
theorem exists_done_of_ok {i : Instr} {s t : State} {r : Build → Block → Ran (List Byte)} {out : List Byte}
    (hi : exec i s = onBlock s fun b u => finish (r b u)) (h : exec i s = .next t) (ht : t.hung = false)
    (hok : t.rspPort = some (0x00 :: out)) : ∃ u, r s.build s.toBlock = .done out u := by
  rw [hi, onBlock_eq] at h
  cases hr : r s.build s.toBlock with
  | done payload u => rw [hr] at h; cases h; cases hok; exact ⟨u, rfl⟩
  | failed e u => rw [hr] at h; cases h; exact absurd (List.cons.inj (Option.some.inj hok)).1 (code_ne_ok e)
  | hung u => rw [hr] at h; cases h; cases ht

/-- DECR that answers OK gives half as many bytes as it was given (R119). -/
theorem length_of_exec_decr {s t : State} {p : Position} {d out : List Byte} (hs : s.seedValid = true)
    (h : exec (.decr p d) s = .next t) (ht : t.hung = false) (hok : t.rspPort = some (0x00 :: out)) :
    2 * out.length = d.length := by
  obtain hd | hd := Nat.mod_two_eq_zero_or_one d.length
  · obtain ⟨u, hu⟩ := exists_done_of_ok (exec_decr_seeded p hd hs) h ht hok
    exact length_of_decryptUnits hu
  · obtain ⟨u, hu⟩ := exists_done_of_ok (r := fun _ t => .failed .lengthMismatch t) (exec_decr_odd s p hd) h ht hok
    cases hu

/-! ### Responses and the past -/

/-- Two blocks with the same seed, POS and response port. -/
structure SameDraws (s t : Block) : Prop where
  seed    : t.seed = s.seed
  pos     : t.pos = s.pos
  rspPort : t.rspPort = s.rspPort

/-- Two runs that come to the same: one result or one hang, on blocks that stay alike, or one error. -/
inductive Alike {α : Type} : Ran α → Ran α → Prop where
  | done (a : α) {s t : Block} : SameDraws s t → Alike (.done a s) (.done a t)
  | failed (e : ErrorKind) (s t : Block) : Alike (.failed e s) (.failed e t)
  | hung {s t : Block} : SameDraws s t → Alike (.hung s) (.hung t)

theorem alike_bind {α β : Type} {r₁ r₂ : Ran α} {k : α → Block → Ran β} (h : Alike r₁ r₂)
    (hk : ∀ a s t, SameDraws s t → Alike (k a s) (k a t)) : Alike (r₁.bind k) (r₂.bind k) := by
  cases h with
  | done a hst => exact hk a _ _ hst
  | failed e s t => exact .failed e s t
  | hung hst => exact .hung hst

/-- A new table depends on the seed and POS alone (R96). -/
theorem alike_newTable (b : Build) {s t : Block} (h : SameDraws s t) : Alike (newTable b s) (newTable b t) := by
  obtain ⟨hseed, hpos, hrsp⟩ := h
  have hgen : generate (genOf b.gen) t.seed t.pos = generate (genOf b.gen) s.seed s.pos := by rw [hseed, hpos]
  obtain ⟨table, p, hg, hn⟩ | ⟨p, hg, hn⟩ := newTable_cases b s
  · rw [hn, newTable_of_done (hgen.trans hg)]
    exact .done table ⟨hseed, rfl, hrsp⟩
  · rw [hn, newTable_of_endless (hgen.trans hg)]
    exact .hung ⟨hseed, rfl, hrsp⟩

theorem alike_encryptUnits (b : Build) (d : List Byte) {s t : Block} (h : SameDraws s t) :
    Alike (encryptUnits b d s) (encryptUnits b d t) := by
  induction d generalizing s t with
  | nil => exact .done [] h
  | cons x rest ih =>
    exact alike_bind (alike_newTable b h) fun _ _ _ h1 => alike_bind (ih h1) fun _ _ _ h2 => .done _ h2

theorem alike_decryptUnits (b : Build) (d : List Byte) {s t : Block} (h : SameDraws s t) :
    Alike (decryptUnits b d s) (decryptUnits b d t) := by
  induction d, s using decryptUnits.induct generalizing t with
  | case1 s => exact .done [] h
  | case2 s x => exact .failed _ _ _
  | case3 s hi lo rest ih =>
    refine alike_bind (alike_newTable b h) fun table s1 t1 h1 => ?_
    cases decodeUnit table hi lo with
    | none => exact .failed _ _ _
    | some x => exact alike_bind (ih s1 h1) fun _ _ _ h2 => .done _ h2

/-- Commands that come to the same leave the same response port. -/
theorem rspPort_eq_of_alike {i : Instr} {s₁ s₂ t₁ t₂ : State} {r : Build → Block → Ran (List Byte)}
    (hi₁ : exec i s₁ = onBlock s₁ fun b u => finish (r b u)) (hi₂ : exec i s₂ = onBlock s₂ fun b u => finish (r b u))
    (ha : Alike (r s₁.build s₁.toBlock) (r s₂.build s₂.toBlock)) (h₁ : exec i s₁ = .next t₁) (h₂ : exec i s₂ = .next t₂) :
    t₁.rspPort = t₂.rspPort := by
  rw [hi₁, onBlock_eq] at h₁
  rw [hi₂, onBlock_eq] at h₂
  generalize r s₁.build s₁.toBlock = run₁ at ha h₁
  generalize r s₂.build s₂.toBlock = run₂ at ha h₂
  cases ha with
  | done payload _ => cases h₁; cases h₂; rfl
  | failed e => cases h₁; cases h₂; rfl
  | hung hst => cases h₁; cases h₂; exact hst.rspPort.symm

/-- Commands that are the same error leave the same response port. -/
theorem rspPort_eq_of_raise {i : Instr} {s₁ s₂ t₁ t₂ : State} {e : ErrorKind}
    (hi₁ : exec i s₁ = onBlock s₁ fun _ u => raise e u) (hi₂ : exec i s₂ = onBlock s₂ fun _ u => raise e u)
    (h₁ : exec i s₁ = .next t₁) (h₂ : exec i s₂ = .next t₂) : t₁.rspPort = t₂.rspPort :=
  rspPort_eq_of_alike (r := fun _ u => .failed e u) hi₁ hi₂ (.failed e _ _) h₁ h₂

end Sys2Proof.Machine

namespace Sys2Proof.RawCipherObligations

open Sys2Proof.Machine Sys2Proof.Safety

/-! ### The statements -/

/-- Settles O33: the encoded Units decode under the tables that encoded them; without data both commands keep the table. -/
theorem decrUndoesEncr : Obligations.DecrUndoesEncr := by
  intro p d out s t u hs henc hth hok hseed hbuild hu hempty
  obtain ⟨ts, q, hts, rfl⟩ := exec_encr_inv hs hth henc
  cases hok
  have hlen : ts.length = d.length := length_of_unitTables hts
  have hout : (encodedUnits ts d).length = 2 * d.length := length_encodedUnits hlen
  have htables : unitTables u.gen u.seed ((encodedUnits ts d).length / 2) p = .done ts q := by
    rw [gen_eq, hbuild, hseed, hout, Nat.mul_div_cancel_left _ Nat.two_pos]
    exact hts
  have hdec := exec_decr_of_done (by omega) hu htables (decode_pairs_encodedUnits hlen (isPerm_of_unitTables hts))
  rw [hdec]
  match d, ts, hlen with
  | [], [], _ =>
    obtain ⟨htable, hvalid⟩ := hempty rfl
    simp [encodedUnits, htable, hvalid]
  | x :: d, T :: ts, _ => simp [encodedUnits_cons, encodeUnit, be2, List.getLastD_cons, -List.getLastD_eq_getLast?]

/-- Settles O28, by the cases of ENCR. -/
theorem encrEncodesEachByteUnderItsOwnTable : Obligations.EncrEncodesEachByteUnderItsOwnTable := fun p d _ =>
  ⟨rfl, exec_encr_noSeed p d, fun _ _ => exec_encr_of_done⟩

/-- Settles O29, by the cases of DECR. -/
theorem decrDecodesEachPairUnderItsOwnTable : Obligations.DecrDecodesEachPairUnderItsOwnTable := fun p _ s =>
  ⟨rfl, exec_decr_odd s p, exec_decr_noSeed p, fun _ _ _ => exec_decr_of_done⟩

/-- Settles O30: the loop ends at the pair that does not decode. -/
theorem decrStopsAtTheFirstCorruptUnit : Obligations.DecrStopsAtTheFirstCorruptUnit := by
  intro p d s j t ts q r out hi lo hd hs hts ht hout hpair hcorrupt
  rw [exec_decr_seeded p hd hs, onBlock_eq, decryptUnits_of_corrupt (s := s.setPos p) hts ht hout hpair hcorrupt]
  rfl

/-- Settles O31: an ENCR that answers had every table, and a DECR that answers decoded every pair. -/
theorem rawDataKeepLengthAndOrder : Obligations.RawDataKeepLengthAndOrder := by
  intro p d out s t hs _ ht hok
  refine ⟨fun henc => ?_, fun hdec => length_of_exec_decr hs hdec ht hok⟩
  obtain ⟨ts, q, hts, rfl⟩ := exec_encr_inv hs ht henc
  cases hok
  have hlen : ts.length = d.length := length_of_unitTables hts
  exact ⟨length_encodedUnits hlen, ts, hlen, hts, fun i x T hx hT => take_drop_encodedUnits hT hx⟩

/-- Settles O32: both blocks fail alike, or after the seek they have the same seed and POS and their units run alike. -/
theorem rawResponsesIgnoreThePast : Obligations.RawResponsesIgnoreThePast := by
  intro p d s₁ s₂ t₁ t₂ hseed hvalid hbuild hrsp
  have hsought : SameDraws (s₁.setPos p) (s₂.setPos p) := ⟨hseed.symm, rfl, hrsp.symm⟩
  constructor
  · cases hs : s₁.seedValid with
    | false => exact rspPort_eq_of_raise (exec_encr_noSeed p d hs) (exec_encr_noSeed p d (hvalid ▸ hs))
    | true =>
      exact rspPort_eq_of_alike (exec_encr_seeded p d hs) (exec_encr_seeded p d (hvalid ▸ hs))
        (hbuild ▸ alike_encryptUnits _ d hsought)
  · obtain hd | hd := Nat.mod_two_eq_zero_or_one d.length
    · cases hs : s₁.seedValid with
      | false => exact rspPort_eq_of_raise (exec_decr_noSeed p hd hs) (exec_decr_noSeed p hd (hvalid ▸ hs))
      | true =>
        exact rspPort_eq_of_alike (exec_decr_seeded p hd hs) (exec_decr_seeded p hd (hvalid ▸ hs))
          (hbuild ▸ alike_decryptUnits _ d hsought)
    · exact rspPort_eq_of_raise (exec_decr_odd s₁ p hd) (exec_decr_odd s₂ p hd)

end Sys2Proof.RawCipherObligations

end

/-!
The system commands (spec/43_system.md R130, R131): the registers that CLR leaves, and what RDSTAT and CLR make of every state.
-/

section

namespace Sys2Proof.Machine

/-- Cleared registers are the reset registers, whatever the block held (R131, R21). -/
theorem sameRegisters_clearRegisters (s : Block) : SameRegisters Block.reset s.clearRegisters where
  seed := clearRegisters_seed s
  seedValid := clearRegisters_seedValid s
  pos := clearRegisters_pos s
  table := clearRegisters_table s
  tableValid := clearRegisters_tableValid s

end Sys2Proof.Machine

namespace Sys2Proof.SystemObligations

open Sys2Proof.Machine Sys2Proof.Safety

/-! ### The statements -/

/-- Settles O36: the payload is the status view, and the response port is all that is written. -/
theorem rdstatAnswersTheFlags : Obligations.RdstatAnswersTheFlags := by
  intro s
  rw [exec_rdstat, onBlock_eq, respondOk_eq, mapNext_next]
  exact ⟨rfl, rfl⟩

/-- Settles O37: an OK response from the block with its registers cleared. -/
theorem clrWipesEveryRegister : Obligations.ClrWipesEveryRegister := by
  intro s
  rw [exec_clr, onBlock_eq, respondOk_eq, mapNext_next]
  have hreset : SameRegisters State.reset.toBlock { s.clearRegisters with rspPort := some [0x00] } :=
    { sameRegisters_clearRegisters s.toBlock with }
  exact ⟨rfl, _, rfl, hreset.registers_eq, rfl⟩

end Sys2Proof.SystemObligations

end

/-!
The host's envelope (spec/48_host_envelope.md R142 to R144): what the host hears of raw data over a seeded block, whatever
MAX_DATA is, and the round trip of its encrypt and decrypt.
-/

section

namespace Sys2Proof.Machine

open Sys2Proof.Safety

/-! ### Raw data under a seed -/

/-- A block built as `b` that holds the seed `k` and takes commands: where the host is between LDSEED and CLR. -/
structure Keyed (b : Build) (k : Seed) (s : State) : Prop where
  build     : s.build = b
  seed      : s.seed = k
  seedValid : s.seedValid = true
  notHung   : s.hung = false

/-- `c` is the data `d` encrypted from position `p` under the seed `k`: every unit has its table, and `c` is the encoded
Units (R113). -/
def Enciphers (b : Build) (k : Seed) (p : Position) (d c : List Byte) : Prop :=
  ∃ ts q, unitTables (genOf b.gen) k d.length p = .done ts q ∧ c = encodedUnits ts d

theorem Enciphers.length_eq {b : Build} {k : Seed} {p : Position} {d c : List Byte} (h : Enciphers b k p d c) :
    c.length = 2 * d.length := by
  obtain ⟨ts, q, hts, rfl⟩ := h
  exact length_encodedUnits (length_of_unitTables hts)

section
variable {s : State} {d : List Byte}

/-- What the host hears of raw data is the loop of `EncryptRaw`, as one ENCR or by hand (R63, R113). -/
theorem rawEncrypt_seeded (p : Position) (d : List Byte) (hs : s.seedValid = true) (hh : s.hung = false) :
    rawEncrypt p d s = answered s (encryptUnits s.build d (s.setPos p)) := by
  unfold rawEncrypt
  split
  · next hw =>
    have hsame := sameElsewhere_encryptUnits s.build d (s.setPos p)
    exact ask_of_finish (i := .encr p d) hw (exec_encr_seeded p d hs) (hsame.hung.trans hh)
  · exact byHand_seek hs hh (unitsAnswer_encryptUnits s d (s.setPos p) hs hh)

/-- What the host hears of raw data of even length is the loop of `DecryptRaw`, as one DECR or by hand (R63, R114). -/
theorem rawDecrypt_seeded (p : Position) (hd : d.length % 2 = 0) (hs : s.seedValid = true) (hh : s.hung = false) :
    rawDecrypt p d s = answered s (decryptUnits s.build d (s.setPos p)) := by
  rw [rawDecrypt, if_neg (show ¬ d.length % 2 = 1 by omega)]
  split
  · next hw =>
    have hsame := sameElsewhere_decryptUnits s.build d (s.setPos p)
    exact ask_of_finish (i := .decr p d) hw (exec_decr_seeded p hd hs) (hsame.hung.trans hh)
  · exact byHand_seek hs hh (unitsAnswer_decryptUnits s d (s.setPos p) hd hs hh)

end

section
variable {b : Build} {k : Seed} {s : State} {p : Position} {d c : List Byte}

/-- The units of raw data leave the block keyed. -/
theorem Keyed.taken_afterTables (h : Keyed b k s) (p q : Position) (ts : List Table) :
    Keyed b k (taken s (afterTables (s.setPos p) ts q)) :=
  ⟨h.build, h.seed, h.seedValid, h.notHung⟩

/-- Raw data that is answered was encrypted, since no table was endless. -/
theorem rawEncrypt_inv {r : Frame} {t : State} (hs : Keyed b k s) (h : rawEncrypt p d s = some (r, t)) :
    ∃ c, r = 0x00 :: c ∧ Enciphers b k p d c ∧ Keyed b k t := by
  have ⟨hb, hk, hv, hh⟩ := hs
  subst hb hk
  rw [rawEncrypt_seeded p d hv hh] at h
  cases hts : unitTables (genOf s.build.gen) s.seed d.length p with
  | done ts q =>
    rw [encryptUnits_of_done (s := s.setPos p) hts] at h
    cases h
    exact ⟨_, rfl, ⟨ts, q, hts, rfl⟩, hs.taken_afterTables p q ts⟩
  | endless r =>
    obtain ⟨j, hj, ts, q, hts', hr⟩ := exists_endless_unit hts
    rw [encryptUnits_of_endless (s := s.setPos p) hts' hr hj] at h
    cases h

/-- Over any block with the same seed and of the same build, encrypted raw data decrypts to the data (R121). -/
theorem rawDecrypt_of_enciphers (hs : Keyed b k s) (h : Enciphers b k p d c) :
    ∃ t, rawDecrypt p c s = some (0x00 :: d, t) ∧ Keyed b k t := by
  have ⟨hb, hk, hv, hh⟩ := hs
  subst hb hk
  have hlen := h.length_eq
  obtain ⟨ts, q, hts, rfl⟩ := h
  have htables : unitTables (genOf s.build.gen) s.seed ((encodedUnits ts d).length / 2) p = .done ts q := by
    rwa [hlen, Nat.mul_div_cancel_left _ Nat.two_pos]
  have hunits := decryptUnits_of_done (s := s.setPos p) (by omega) htables
    (decode_pairs_encodedUnits (length_of_unitTables hts) (isPerm_of_unitTables hts))
  rw [rawDecrypt_seeded p (by omega) hv hh, hunits]
  exact ⟨_, rfl, hs.taken_afterTables p q ts⟩

end

/-! ### The host's calls -/

/-- LDSEED begins a call: the block is keyed (R143, R144). -/
theorem ask_ldseed (k : Seed) {s : State} (hh : s.hung = false) :
    ∃ t, ask (.ldseed k) s = some ([0x00], t) ∧ Keyed s.build k t :=
  ⟨_, ask_of_finish (r := fun _ t => .done [] (t.loadSeed k)) rfl (exec_ldseed k s) hh, rfl, rfl, rfl, hh⟩

/-- CLR ends a call with its result, on a block that takes commands. -/
theorem endCall_of_not_hung {α : Type} (a : α) {s : State} (hh : s.hung = false) : ∃ t, endCall a s = some (a, t) := by
  have hclr : ask .clr s = some ([0x00], taken s s.clearRegisters) :=
    ask_of_finish (r := fun _ t => .done [] t.clearRegisters) rfl (exec_clr s) hh
  exact ⟨_, by rw [endCall, hclr]⟩

/-- A call that ended has the result it was ended with. -/
theorem eq_of_endCall {α : Type} {a x : α} {s t : State} (h : endCall a s = some (x, t)) : x = a := by
  unfold endCall at h
  split at h
  · cases h
  · cases h; rfl

theorem readResponse_ok (payload : List Byte) : readResponse (0x00 :: payload) = some (.ok payload) := rfl

theorem okPayload_ok (payload : List Byte) : okPayload (0x00 :: payload) = some payload := rfl

/-- The offset's bytes read back are the offset (R143, R144). -/
theorem ofNat_fromBE_beBytes (p : Position) : BitVec.ofNat 128 (fromBE (beBytes 16 p.toNat)) = p :=
  ((ofNat_fromBE_eq_iff 16 _ p).2 rfl).2

section
variable {h : HostParams} {key c₁ c₂ : List Byte} {offset : h.Offset} {message : Text} {s : State}

/-- The ciphertext of a call that ended is the envelope (R142) of the offset encrypted at position 0 and the message
encrypted at the offset. -/
theorem hostEncrypt_inv {ciphertext : List Byte} {t : State} (hh : s.hung = false)
    (henc : hostEncrypt h key offset message s = some (ciphertext, t)) :
    ∃ c₁ c₂, Enciphers s.build (h.kdf key) 0 (beBytes 16 offset.val.toNat) c₁ ∧
      Enciphers s.build (h.kdf key) offset.val message.bytes c₂ ∧
      ciphertext = h.toText (h.marker.toList ++ c₁ ++ c₂) := by
  obtain ⟨s1, hld, hk1⟩ := ask_ldseed (h.kdf key) hh
  simp only [hostEncrypt, hld] at henc
  split at henc
  · cases henc
  · next r2 s2 hr2 =>
    obtain ⟨c₁, rfl, hc₁, hk2⟩ := rawEncrypt_inv hk1 hr2
    split at henc
    · cases henc
    · next r3 s3 hr3 =>
      obtain ⟨c₂, rfl, hc₂, _⟩ := rawEncrypt_inv hk2 hr3
      simp only [okPayload_ok] at henc
      exact ⟨c₁, c₂, hc₁, hc₂, eq_of_endCall henc⟩

/-- The message encrypted at the offset, decrypted by a host that has the offset's bytes (R144 steps 5 to 8). -/
theorem decryptPayload_of_enciphers {b : Build} {k : Seed} {p : Position} (hs : Keyed b k s)
    (hc : Enciphers b k p message.bytes c₂) :
    ∃ t, decryptPayload (beBytes 16 p.toNat) c₂ s = some (.ok message, t) := by
  obtain ⟨t, hdec, hkt⟩ := rawDecrypt_of_enciphers hs hc
  obtain ⟨v, hend⟩ := endCall_of_not_hung (.ok message : Except ErrorKind Text) hkt.notHung
  exact ⟨v, by simp only [decryptPayload, ofNat_fromBE_beBytes, hdec, readResponse_ok, messageOf_bytes, hend]⟩

/-- Decryption of such an envelope passes every check of R144 and gives the message. -/
theorem hostDecrypt_of_enciphers (hh : s.hung = false)
    (hc₁ : Enciphers s.build (h.kdf key) 0 (beBytes 16 offset.val.toNat) c₁)
    (hc₂ : Enciphers s.build (h.kdf key) offset.val message.bytes c₂) :
    ∃ t, hostDecrypt h key (h.toText (h.marker.toList ++ c₁ ++ c₂)) s = some (.ok message, t) := by
  obtain ⟨s1, hld, hk1⟩ := ask_ldseed (h.kdf key) hh
  obtain ⟨s2, hoff, hk2⟩ := rawDecrypt_of_enciphers hk1 hc₁
  obtain ⟨t, hpay⟩ := decryptPayload_of_enciphers hk2 hc₂
  have htext := (h.exact (h.toText (h.marker.toList ++ c₁ ++ c₂)) _).2 rfl
  have hm : h.marker.toList.length = 6 := h.marker.length_toList
  have hc : c₁.length = 32 := by rw [hc₁.length_eq, Laws.FrameShape.length_beBytes]
  have hmc : (h.marker.toList ++ c₁).length = 38 := by rw [List.length_append, hm, hc]
  have hlong : ¬ (h.marker.toList ++ c₁ ++ c₂).length < 6 + 32 := by rw [List.length_append, hmc]; omega
  have hmagic : (h.marker.toList ++ c₁ ++ c₂).take 6 = h.marker.toList := by rw [List.append_assoc, List.take_left' hm]
  have hdrop : (h.marker.toList ++ c₁ ++ c₂).drop 6 = c₁ ++ c₂ := by rw [List.append_assoc, List.drop_left' hm]
  refine ⟨t, ?_⟩
  simp only [hostDecrypt, htext, hlong, hmagic, hdrop, List.take_left' hc, List.drop_left' hmc, hld, hoff, readResponse_ok,
    hpay, if_false, ne_eq, not_true_eq_false]

end

end Sys2Proof.Machine

namespace Sys2Proof.EnvelopeObligations

open Sys2Proof.Machine

/-! ### The statements -/

/-- Settles O60: the ciphertext is an envelope of encrypted parts, and such an envelope decrypts over any block of the build. -/
theorem decryptUndoesEncrypt : Obligations.DecryptUndoesEncrypt := by
  intro h key ciphertext message offset s t u hs hu hbuild henc
  obtain ⟨c₁, c₂, hc₁, hc₂, rfl⟩ := hostEncrypt_inv hs henc
  rw [← hbuild] at hc₁ hc₂
  exact hostDecrypt_of_enciphers hu hc₁ hc₂

end Sys2Proof.EnvelopeObligations

end

/-!
Errors, liveness and separate blocks (spec/60_exceptions.md): how a command can fail and when it can hang, the runs that never
stop, and what two blocks with the same registers have in common.
-/

section

namespace Sys2Proof.Machine

open Sys2Proof.Safety

/-! ### Draws under a live generator -/

/-- A live generator has no endless draw over a range a command can have (R32 G4). -/
theorem not_live_of_nextBounded {g : Gen} {seed : Seed} {n : Nat} {p q : Position} (h1 : 1 ≤ n) (h32 : n < 2 ^ 32)
    (h : nextBounded g seed n p = .endless q) : ¬ Live g := by
  intro hg
  obtain ⟨_, hrejected⟩ := (nextBounded_eq_endless_iff g seed n p q).1 h
  obtain ⟨a, ha, hacc⟩ := exists_accepted_of_live hg seed p h1 h32
  exact hrejected a ha hacc

theorem not_live_of_generateRounds {g : Gen} {seed : Seed} {m : Nat} {pool : List Nibble} {p q : Position} (hm : m < 2 ^ 32)
    (h : generateRounds g seed m pool p = .endless q) : ¬ Live g := by
  induction m generalizing pool p q with
  | zero => cases h
  | succ k ih =>
    cases hdraw : nextBounded g seed (k + 1) p with
    | endless r => exact not_live_of_nextBounded k.succ_pos hm hdraw
    | done idx r =>
      cases hrest : generateRounds g seed k (pool.eraseIdx idx) r with
      | endless r' => exact ih (by omega) hrest
      | done rest r' => simp [generateRounds, hdraw, hrest] at h

theorem not_live_of_generate {g : Gen} {seed : Seed} {p q : Position} (h : generate g seed p = .endless q) : ¬ Live g := by
  cases hrounds : generateRounds g seed 16 fullPool p with
  | endless r => exact not_live_of_generateRounds (by decide) hrounds
  | done l r => simp [generate, hrounds] at h

/-! ### How a part of a command ends -/

/-- A part of a command has a result, or fails with an error that `fails` allows, or hangs, only where `hangs` holds. -/
inductive EndsWithin {α : Type} (hangs : Prop) (fails : ErrorKind → Prop) : Ran α → Prop where
  | done (a : α) (s : Block) : EndsWithin hangs fails (.done a s)
  | failed {e : ErrorKind} (s : Block) (he : fails e) : EndsWithin hangs fails (.failed e s)
  | hung (s : Block) (hh : hangs) : EndsWithin hangs fails (.hung s)

theorem EndsWithin.bind {α β : Type} {hangs : Prop} {fails : ErrorKind → Prop} {r : Ran α} {k : α → Block → Ran β}
    (h : EndsWithin hangs fails r) (hk : ∀ a s, EndsWithin hangs fails (k a s)) : EndsWithin hangs fails (r.bind k) := by
  cases h with
  | done a s => exact hk a s
  | failed s he => exact .failed s he
  | hung s hh => exact .hung s hh

/-- More errors may be allowed. -/
theorem EndsWithin.mono {α : Type} {hangs : Prop} {fails fails' : ErrorKind → Prop} {r : Ran α}
    (h : EndsWithin hangs fails r) (hf : ∀ e, fails e → fails' e) : EndsWithin hangs fails' r := by
  cases h with
  | done a s => exact .done a s
  | failed s he => exact .failed s (hf _ he)
  | hung s hh => exact .hung s hh

section
variable (fails : ErrorKind → Prop) (b : Build)

/-- A draw never fails, and hangs only under a generator that is not live (R76). -/
theorem endsWithin_drawInto {n : Nat} (h1 : 1 ≤ n) (h32 : n < 2 ^ 32) (s : Block) :
    EndsWithin (¬ Live (genOf b.gen)) fails (drawInto b n s) := by
  obtain ⟨v, p, _, h⟩ | ⟨hd, h⟩ := drawInto_cases b n s <;> rw [h]
  · exact .done v _
  · exact .hung _ (not_live_of_nextBounded h1 h32 hd)

theorem endsWithin_newTable (s : Block) : EndsWithin (¬ Live (genOf b.gen)) fails (newTable b s) := by
  obtain ⟨t, p, _, h⟩ | ⟨p, hg, h⟩ := newTable_cases b s <;> rw [h]
  · exact .done t _
  · exact .hung _ (not_live_of_generate hg)

theorem endsWithin_encryptUnits (d : List Byte) (s : Block) :
    EndsWithin (¬ Live (genOf b.gen)) fails (encryptUnits b d s) := by
  induction d generalizing s with
  | nil => exact .done _ _
  | cons x rest ih => exact (endsWithin_newTable fails b s).bind fun t s1 => (ih s1).bind fun _ _ => .done _ _

end

/-- Data of even length fail only as Corrupt (R114). -/
theorem endsWithin_decryptUnits (b : Build) {d : List Byte} (hd : d.length % 2 = 0) (s : Block) :
    EndsWithin (¬ Live (genOf b.gen)) (· = .corrupt) (decryptUnits b d s) := by
  induction d, s using decryptUnits.induct with
  | case1 s => exact .done _ _
  | case2 s x => cases hd
  | case3 s hi lo rest ih =>
    have hrest : rest.length % 2 = 0 := (Nat.add_mod_right rest.length 2).symm.trans hd
    refine (endsWithin_newTable _ b s).bind fun t s1 => ?_
    cases decodeUnit t hi lo with
    | none => exact .failed _ rfl
    | some x => exact (ih s1 hrest).bind fun _ _ => .done _ _

/-! ### What a command answers -/

/-- What command `i`, run on `s` with the generator `g`, answers in its next state `t`. -/
inductive Answer (g : Gen) (i : Instr) (s t : Block) : Prop where
  /-- it succeeds -/
  | ok (payload : List Byte) (hrsp : t.rspPort = some (0x00 :: payload))
  /-- an error that changes nothing but the response port (R179) -/
  | error (e : ErrorKind) (ht : t = { s with rspPort := some [e.code] })
  /-- the one error that can leave changed registers (R178) -/
  | corrupt (p : Position) (d : List Byte) (hi : i = .decr p d) (hrsp : t.rspPort = some [ErrorKind.corrupt.code])
  /-- a hang, which answers nothing (R76) -/
  | hung (hg : ¬ Live g) (hrsp : t.rspPort = s.rspPort)

/-- Where the outcome `o` of command `i` on `s` is a next state, that state is an answer. -/
def Answers (g : Gen) (i : Instr) (s : Block) (o : Host.Outcome Block Fault Refusal) : Prop :=
  ∀ t, o = .next t → Answer g i s t

section
variable {g : Gen} {i : Instr} {s : Block}

theorem answers_respondOk (payload : List Byte) (u : Block) : Answers g i s (respondOk payload u) := by
  rintro _ ⟨⟩
  exact .ok payload rfl

theorem answers_raise (e : ErrorKind) : Answers g i s (raise e s) := by
  rintro _ ⟨⟩
  exact .error e rfl

theorem answers_withTable {k : Table → Host.Outcome Block Fault Refusal} (hk : Answers g i s (k s.table)) :
    Answers g i s (withTable s k) := by
  obtain ⟨_, h⟩ | ⟨_, _, h⟩ | ⟨_, _, h⟩ := withTable_cases s k <;> rw [h]
  · exact answers_raise .noTable
  · exact hk
  · exact nofun

/-- A part of a command that fails, if at all, as Corrupt in DECR. -/
theorem answers_finish {r : Ran (List Byte)} (hr : EndsWithin (¬ Live g) (fun e => e = .corrupt ∧ ∃ p d, i = .decr p d) r)
    (hs : SameElsewhere s r.state) : Answers g i s (finish r) := by
  cases hr with
  | done payload u => exact answers_respondOk payload u
  | failed u he =>
    obtain ⟨rfl, p, d, hi⟩ := he
    rintro _ ⟨⟩
    exact .corrupt p d hi rfl
  | hung u hg =>
    rintro _ ⟨⟩
    exact .hung hg hs.rspPort

/-- NoSeed without a seed (R175), else the run of a command that reads the keystream. -/
theorem answers_ifSeeded {r : Ran (List Byte)} (hr : EndsWithin (¬ Live g) (fun e => e = .corrupt ∧ ∃ p d, i = .decr p d) r)
    (hs : SameElsewhere s r.state) : Answers g i s (if s.seedValid = false then raise .noSeed s else finish r) := by
  split
  · exact answers_raise .noSeed
  · exact answers_finish hr hs

end

/-- Every command is an operation on the block whose next states are its answers. -/
theorem exec_answers (i : Instr) (s : State) :
    ∃ f, exec i s = onBlock s f ∧ Answers s.gen i s.toBlock (f s.build s.toBlock) := by
  cases i with
  | ldseed k => exact ⟨_, exec_ldseed k s, answers_respondOk _ _⟩
  | clr => exact ⟨_, exec_clr s, answers_respondOk _ _⟩
  | rdstat => exact ⟨_, exec_rdstat s, answers_respondOk _ _⟩
  | seek p =>
    refine ⟨_, exec_seek p s, ?_⟩
    split
    · exact answers_raise .noSeed
    · exact answers_respondOk _ _
  | draw n =>
    refine ⟨_, exec_draw n s, ?_⟩
    split
    · exact answers_raise .illegalOperand
    · next hn =>
      have h1 : 1 ≤ n.toNat := by bv_omega
      exact answers_ifSeeded ((endsWithin_drawInto _ _ h1 n.isLt _).bind fun _ _ => .done _ _)
        (sameElsewhere_bind _ _ _ (sameElsewhere_drawInto _ _ _) fun _ _ h => h)
  | gentab =>
    exact ⟨_, exec_gentab s, answers_ifSeeded ((endsWithin_newTable _ _ _).bind fun _ _ => .done _ _)
      (sameElsewhere_bind _ _ _ (sameElsewhere_newTable _ _) fun _ _ h => h)⟩
  | ldtab k =>
    refine ⟨_, exec_ldtab k s, ?_⟩
    split
    · exact answers_raise .illegalOperand
    · exact answers_respondOk _ _
  | encr p d =>
    exact ⟨_, exec_encr p d s, answers_ifSeeded (endsWithin_encryptUnits _ _ d _)
      ((sameElsewhere_setPos _ p).trans (sameElsewhere_encryptUnits _ d _))⟩
  | decr p d =>
    refine ⟨_, exec_decr p d s, ?_⟩
    simp only [decryptRaw]
    split
    · exact answers_raise .lengthMismatch
    · next hd =>
      exact answers_ifSeeded ((endsWithin_decryptUnits _ (by omega) _).mono fun _ he => ⟨he, p, d, rfl⟩)
        ((sameElsewhere_setPos _ p).trans (sameElsewhere_decryptUnits _ d _))
  | dec c =>
    refine ⟨_, exec_dec c s, answers_withTable ?_⟩
    split
    · exact answers_raise .corrupt
    · exact answers_respondOk _ _
  | permw u => exact ⟨_, exec_permw u s, answers_withTable (answers_respondOk _ _)⟩
  | unpermw w => exact ⟨_, exec_unpermw w s, answers_withTable (answers_respondOk _ _)⟩
  | enc b => exact ⟨_, exec_enc b s, answers_withTable (answers_respondOk _ _)⟩

/-- Every next state of a command is an answer. -/
theorem exec_answer {i : Instr} {s t : State} (h : exec i s = .next t) : Answer s.gen i s.toBlock t.toBlock := by
  obtain ⟨f, hf, hans⟩ := exec_answers i s
  rw [hf, onBlock_eq] at h
  obtain ⟨u, hu, rfl⟩ := mapNext_eq_next h
  exact hans u hu

/-- A state is its block, its build and the host's moves. -/
theorem eq_of_toBlock {s t : State} {x : Block} (hx : t.toBlock = x) (hb : t.build = s.build)
    (hm : t.hostMoves = s.hostMoves) : t = { s with toBlock := x } := by
  cases t
  cases hx
  cases hb
  cases hm
  rfl

/-! ### Runs that never stop -/

/-- Under the invariant no command is refused. -/
theorem exec_next_of_blockInv (i : Instr) {s : State} (hs : BlockInv s) : ∃ t, exec i s = .next t := by
  obtain ⟨t, ht, _⟩ | ⟨hv, hp, _⟩ := exec_endsWell i s
  · exact ⟨t, ht⟩
  · exact absurd ((hs.tableIsPerm hv).symm.trans hp) (by decide)

/-- The invariant does not speak of the frames that wait. -/
theorem blockInv_withCmdPort {s : State} (hs : BlockInv s) (rest : List Frame) : BlockInv { s with cmdPort := rest } :=
  ⟨hs.tableIsPerm, hs.tableIsZero, hs.seedIsZero, hs.hungIsSeeded, hs.rspIsLegal⟩

/-- Under the invariant every step has a next state. -/
theorem step_next_of_blockInv {s : State} (hs : BlockInv s) : ∃ t, step s = .next t := by
  obtain ⟨_, hstep⟩ | ⟨f, rest, _, hstep⟩ | ⟨_, _, hstep⟩ := step_cases s
  · exact ⟨_, hstep⟩
  · obtain ⟨_, hrun⟩ | ⟨i, _, hrun⟩ := runFrame_cases f { s with cmdPort := rest }
    · exact ⟨_, hstep.trans hrun⟩
    · obtain ⟨t, ht⟩ := exec_next_of_blockInv i (blockInv_withCmdPort hs rest)
      exact ⟨t, hstep.trans (hrun.trans ht)⟩
  · exact ⟨_, hstep⟩

/-- A run of one step more begins with a step. -/
theorem run_succ_of_step {M : Host.Core} {s t : M.State} (k : Nat) (h : M.step s = .next t) : M.run (k + 1) s = M.run k t := by
  rw [Host.Core.run, h]

/-! ### Blocks that differ in their waiting frames -/

/-- The block with other frames on its command port. -/
def Block.withQueue (s : Block) (q : List Frame) : Block := { s with cmdPort := q }

/-- A part of a command as it runs on the block with other waiting frames. -/
def Ran.withQueue {α : Type} (r : Ran α) (q : List Frame) : Ran α :=
  match r with
  | .done a s => .done a (s.withQueue q)
  | .failed e s => .failed e (s.withQueue q)
  | .hung s => .hung (s.withQueue q)

theorem withQueue_bind {α β : Type} {q : List Frame} {k : α → Block → Ran β} (r : Ran α)
    (hk : ∀ a s, k a (s.withQueue q) = (k a s).withQueue q) : (r.withQueue q).bind k = (r.bind k).withQueue q := by
  cases r with
  | done a s => exact hk a s
  | failed e s => rfl
  | hung s => rfl

theorem drawInto_withQueue (b : Build) (n : Nat) (s : Block) (q : List Frame) :
    drawInto b n (s.withQueue q) = (drawInto b n s).withQueue q := by
  unfold drawInto
  have hdraw : nextBounded (genOf b.gen) (s.withQueue q).seed n (s.withQueue q).pos =
      nextBounded (genOf b.gen) s.seed n s.pos := rfl
  rw [hdraw]
  cases nextBounded (genOf b.gen) s.seed n s.pos <;> rfl

theorem newTable_withQueue (b : Build) (s : Block) (q : List Frame) :
    newTable b (s.withQueue q) = (newTable b s).withQueue q := by
  obtain ⟨t, p, hg, h⟩ | ⟨p, hg, h⟩ := newTable_cases b s <;> rw [h]
  · exact newTable_of_done (s := s.withQueue q) hg
  · exact newTable_of_endless (s := s.withQueue q) hg

theorem encryptUnits_withQueue (b : Build) (d : List Byte) (s : Block) (q : List Frame) :
    encryptUnits b d (s.withQueue q) = (encryptUnits b d s).withQueue q := by
  induction d generalizing s with
  | nil => rfl
  | cons x rest ih =>
    rw [encryptUnits, newTable_withQueue]
    refine withQueue_bind _ fun t s1 => ?_
    rw [ih]
    exact withQueue_bind _ fun _ _ => rfl

theorem decryptUnits_withQueue (b : Build) (d : List Byte) (s : Block) (q : List Frame) :
    decryptUnits b d (s.withQueue q) = (decryptUnits b d s).withQueue q := by
  induction d, s using decryptUnits.induct with
  | case1 s => rfl
  | case2 s x => rfl
  | case3 s hi lo rest ih =>
    rw [decryptUnits, newTable_withQueue]
    refine withQueue_bind _ fun t s1 => ?_
    cases decodeUnit t hi lo with
    | none => rfl
    | some x =>
      dsimp only
      rw [ih]
      exact withQueue_bind _ fun _ _ => rfl

/-- An operation on the block that neither reads nor writes the waiting frames. -/
def QueueBlind (f : Block → Host.Outcome Block Fault Refusal) : Prop :=
  ∀ s q, f (s.withQueue q) = mapNext (·.withQueue q) (f s)

theorem queueBlind_finish {r : Block → Ran (List Byte)} (hr : ∀ s q, r (s.withQueue q) = (r s).withQueue q) :
    QueueBlind fun s => finish (r s) := by
  intro s q
  dsimp only
  rw [hr]
  cases r s <;> rfl

theorem queueBlind_ite {c : Block → Prop} [DecidablePred c] {f g : Block → Host.Outcome Block Fault Refusal}
    (hc : ∀ s q, c (s.withQueue q) = c s) (hf : QueueBlind f) (hg : QueueBlind g) :
    QueueBlind fun s => if c s then f s else g s := by
  intro s q
  simp only [hc, hf s q, hg s q, apply_ite (mapNext _)]

theorem queueBlind_withTable {k : Block → Table → Host.Outcome Block Fault Refusal} (hk : ∀ t, QueueBlind fun s => k s t) :
    QueueBlind fun s => withTable s (k s) :=
  queueBlind_ite (fun _ _ => rfl) (fun _ _ => rfl)
    (queueBlind_ite (fun _ _ => rfl) (fun s q => hk s.table s q) fun _ _ => rfl)

theorem queueBlind_ifSeeded {f : Block → Host.Outcome Block Fault Refusal} (hf : QueueBlind f) :
    QueueBlind fun s => if s.seedValid = false then raise .noSeed s else f s :=
  queueBlind_ite (fun _ _ => rfl) (fun _ _ => rfl) hf

/-- Every command is blind to the frames that wait. -/
theorem exec_queueBlind (i : Instr) : ∃ f, (∀ s, exec i s = onBlock s f) ∧ ∀ b, QueueBlind (f b) := by
  cases i with
  | ldseed k => exact ⟨_, exec_ldseed k, fun _ _ _ => rfl⟩
  | clr => exact ⟨_, exec_clr, fun _ _ _ => rfl⟩
  | rdstat => exact ⟨_, exec_rdstat, fun _ _ _ => rfl⟩
  | seek p => exact ⟨_, exec_seek p, fun _ => queueBlind_ifSeeded fun _ _ => rfl⟩
  | draw n =>
    refine ⟨_, exec_draw n, fun b => queueBlind_ite (fun _ _ => rfl) (fun _ _ => rfl) ?_⟩
    refine queueBlind_ifSeeded (queueBlind_finish fun s q => ?_)
    rw [drawInto_withQueue]
    exact withQueue_bind _ fun _ _ => rfl
  | gentab =>
    refine ⟨_, exec_gentab, fun b => queueBlind_ifSeeded (queueBlind_finish fun s q => ?_)⟩
    rw [newTable_withQueue]
    exact withQueue_bind _ fun _ _ => rfl
  | ldtab t => exact ⟨_, exec_ldtab t, fun _ => queueBlind_ite (fun _ _ => rfl) (fun _ _ => rfl) fun _ _ => rfl⟩
  | permw u => exact ⟨_, exec_permw u, fun _ => queueBlind_withTable fun _ _ _ => rfl⟩
  | unpermw w => exact ⟨_, exec_unpermw w, fun _ => queueBlind_withTable fun _ _ _ => rfl⟩
  | enc x => exact ⟨_, exec_enc x, fun _ => queueBlind_withTable fun _ _ _ => rfl⟩
  | dec c =>
    refine ⟨_, exec_dec c, fun _ => queueBlind_withTable fun t _ _ => ?_⟩
    dsimp only
    cases decodeUnit t (c.extractLsb' 8 8) (c.extractLsb' 0 8) <;> rfl
  | encr p d =>
    exact ⟨_, exec_encr p d, fun b =>
      queueBlind_ifSeeded (queueBlind_finish fun s q => encryptUnits_withQueue b d (s.setPos p) q)⟩
  | decr p d =>
    refine ⟨_, exec_decr p d, fun b => queueBlind_ite (fun _ _ => rfl) (fun _ _ => rfl) ?_⟩
    refine queueBlind_ifSeeded (queueBlind_finish fun s q => ?_)
    unfold decryptRaw
    split
    · rfl
    · exact decryptUnits_withQueue b d (s.setPos p) q

/-- Running a frame is blind to the frames that wait behind it. -/
theorem queueBlind_runFrame (b : Build) (f : Frame) : QueueBlind (runFrame b f) := by
  intro s q
  unfold runFrame
  cases decode b.maxData f with
  | error e => rfl
  | ok i =>
    obtain ⟨g, hg, hblind⟩ := exec_queueBlind i
    simp only [execBlock, hg, onBlock_eq, hblind b s q, mapNext_mapNext]

/-- The same registers, response port and hang are all of a block but its waiting frames. -/
theorem eq_withQueue {s u : Block} (h : SameRegisters s u) (hrsp : u.rspPort = s.rspPort) (hhung : u.hung = s.hung) :
    u = s.withQueue u.cmdPort := by
  obtain ⟨hseed, hseedValid, hpos, htable, htableValid⟩ := h
  cases u
  exact (Block.mk.injEq ..).mpr ⟨hseed, hseedValid, hpos, htable, htableValid, rfl, hrsp, hhung⟩

theorem sameRegisters_of_registers_eq {s u : State} (h : registers s = registers u) : SameRegisters s.toBlock u.toBlock := by
  simp only [registers, Prod.mk.injEq] at h
  obtain ⟨hseed, hseedValid, hpos, htable, htableValid⟩ := h
  exact ⟨hseed.symm, hseedValid.symm, hpos.symm, htable.symm, htableValid.symm⟩

/-- Two states of one build that differ in the waiting frames and the host's moves alone. -/
structure Twins (s u : State) : Prop where
  build   : u.build = s.build
  same    : SameRegisters s.toBlock u.toBlock
  rspPort : u.rspPort = s.rspPort
  hung    : u.hung = s.hung

theorem Twins.symm {s u : State} (h : Twins s u) : Twins u s where
  build := h.build.symm
  same := sameRegisters_of_registers_eq h.same.registers_eq
  rspPort := h.rspPort.symm
  hung := h.hung.symm

/-- Blocks of one build and with the same registers that accept a frame are twins, the frame off their ports. -/
theorem twins_of_accepts {s u : State} {f g : Frame} {rest more : List Frame} (hbuild : s.build = u.build)
    (hreg : registers s = registers u) (hs : Accepts s f rest) (hu : Accepts u g more) :
    Twins { s with cmdPort := rest } { u with cmdPort := more } :=
  have ⟨_, hsh, hsp, _⟩ := hs
  have ⟨_, huh, hup, _⟩ := hu
  have hsame : SameRegisters s.toBlock u.toBlock := sameRegisters_of_registers_eq hreg
  ⟨hbuild.symm, { hsame with }, hup.trans hsp.symm, huh.trans hsh.symm⟩

/-- Twins that run the same frame are twins after it. -/
theorem Twins.next_of_runFrame {s u t : State} (h : Twins s u) (f : Frame)
    (ht : onBlock s (fun b x => runFrame b f x) = .next t) :
    ∃ v, onBlock u (fun b x => runFrame b f x) = .next v ∧ Twins t v := by
  rw [onBlock_eq] at ht
  obtain ⟨x, hx, rfl⟩ := mapNext_eq_next ht
  have hrun : runFrame u.build f u.toBlock = .next (x.withQueue u.cmdPort) := by
    rw [eq_withQueue h.same h.rspPort h.hung, h.build, queueBlind_runFrame, hx, mapNext_next]
    rfl
  refine ⟨{ u with toBlock := x.withQueue u.cmdPort }, ?_, h.build, ⟨rfl, rfl, rfl, rfl, rfl⟩, rfl, rfl⟩
  rw [onBlock_eq, hrun, mapNext_next]

/-! ### Conversations -/

/-- What sending a frame gives: the response of the block that ran it, which the host has taken. -/
theorem sendFrame_eq_some_iff (f r : Frame) (s w : State) :
    sendFrame f s = some (r, w) ↔
      ∃ t, onBlock s (fun b x => runFrame b f x) = .next t ∧ t.hung = false ∧ t.rspPort = some r ∧
        w = { t with rspPort := none } := by
  unfold sendFrame
  cases onBlock s (fun b x => runFrame b f x) with
  | next t =>
    dsimp only
    split
    · next r' hh hr =>
      constructor
      · rintro ⟨⟩
        exact ⟨t, rfl, hh, hr, rfl⟩
      · rintro ⟨_, ⟨⟩, _, hr', rfl⟩
        cases hr.symm.trans hr'
        rfl
    · next hno =>
      constructor
      · exact nofun
      · rintro ⟨_, ⟨⟩, hh, hr, _⟩
        exact (hno r hh hr).elim
  | fault _ => simp
  | refused _ => simp

/-- Twins respond alike and stay twins. -/
theorem Twins.some_of_sendFrame {s u t : State} {f r : Frame} (h : Twins s u) (hs : sendFrame f s = some (r, t)) :
    ∃ v, sendFrame f u = some (r, v) ∧ Twins t v := by
  obtain ⟨x, hx, hh, hr, rfl⟩ := (sendFrame_eq_some_iff f r s t).1 hs
  obtain ⟨y, hy, hxy⟩ := h.next_of_runFrame f hx
  exact ⟨_, (sendFrame_eq_some_iff f r u _).2 ⟨y, hy, hxy.hung.trans hh, hxy.rspPort.trans hr, rfl⟩,
    hxy.build, { hxy.same with }, rfl, hxy.hung⟩

/-- What the host hears of a block that is sent the frames `l`, and what is in its registers then. -/
def heard (l : List Frame) (s : State) : Option (List Frame × Seed × Bool × Position × Table × Bool) :=
  (converse l s).map fun x => (x.1, registers x.2)

theorem heard_cons_of_none {f : Frame} {s : State} (l : List Frame) (h : sendFrame f s = none) : heard (f :: l) s = none := by
  simp [heard, converse, h]

/-- After a response the host hears the rest. -/
theorem heard_cons_of_some {f r : Frame} {s t : State} (l : List Frame) (h : sendFrame f s = some (r, t)) :
    heard (f :: l) s = (heard l t).map fun x => (r :: x.1, x.2) := by
  cases hl : converse l t <;> simp [heard, converse, h, hl]

/-- The host hears the same of twins. -/
theorem Twins.heard_eq {s u : State} (h : Twins s u) (l : List Frame) : heard l s = heard l u := by
  induction l generalizing s u with
  | nil => exact congrArg (fun x => some ([], x)) h.same.registers_eq.symm
  | cons f l ih =>
    cases hs : sendFrame f s with
    | some x =>
      obtain ⟨v, hv, hxv⟩ := h.some_of_sendFrame (t := x.2) hs
      rw [heard_cons_of_some l hs, heard_cons_of_some l hv, ih hxv]
    | none =>
      cases hu : sendFrame f u with
      | none => rw [heard_cons_of_none l hs, heard_cons_of_none l hu]
      | some y =>
        obtain ⟨v, hv, _⟩ := h.symm.some_of_sendFrame (t := y.2) hu
        cases hs.symm.trans hv

/-- LDSEED makes twins of any two blocks of a build that take commands: it writes every register (R70), and the host takes
its response. -/
theorem twins_loadSeed (k : Seed) {s u : State} (hbuild : s.build = u.build) (hs : s.hung = false) (hu : u.hung = false) :
    Twins (taken s (s.loadSeed k)) (taken u (u.loadSeed k)) where
  build := hbuild.symm
  same := ⟨rfl, rfl, rfl, rfl, rfl⟩
  rspPort := rfl
  hung := hu.trans hs.symm

theorem sendFrame_ldseed (k : Seed) {s : State} (hh : s.hung = false) :
    sendFrame (encode (.ldseed k)) s = some ([0x00], taken s (s.loadSeed k)) :=
  ask_of_finish (r := fun _ t => .done [] (t.loadSeed k)) rfl (exec_ldseed k s) hh

/-- From an LDSEED on, the host hears the same of any two blocks of a build that take commands. -/
theorem heard_ldseed_eq (k : Seed) (l : List Frame) {s u : State} (hbuild : s.build = u.build) (hs : s.hung = false)
    (hu : u.hung = false) : heard (encode (.ldseed k) :: l) s = heard (encode (.ldseed k) :: l) u := by
  rw [heard_cons_of_some l (sendFrame_ldseed k hs), heard_cons_of_some l (sendFrame_ldseed k hu),
    (twins_loadSeed k hbuild hs hu).heard_eq l]

/-! ### Several blocks -/

/-- A step of block `k` of several is its own step, put in its place (R186). -/
theorem stepInstance_eq_some_iff (k : Nat) (blocks after : List State) :
    stepInstance k blocks = some after ↔ ∃ s t, blocks[k]? = some s ∧ step s = .next t ∧ after = blocks.set k t := by
  unfold stepInstance
  cases blocks[k]? with
  | none => simp
  | some s => cases hstep : step s <;> simp [hstep, eq_comm]

end Sys2Proof.Machine

namespace Sys2Proof.ExceptionObligations

open Sys2Proof.Machine Sys2Proof.Safety

/-! ### The statements -/

/-- Settles O8: no command is refused under the invariant, and the answer of a hang needs a generator that is not live. -/
theorem liveGeneratorAnswersEveryCommand : Obligations.LiveGeneratorAnswersEveryCommand := by
  intro i s hg hs hh hp
  obtain ⟨t, ht⟩ := exec_next_of_blockInv i hs
  obtain ⟨_, hno⟩ | ⟨hth, r, hr, hl⟩ := EncodingObligations.oneResponsePerCommand i s t hp hh ht
  · cases exec_answer ht with
    | ok payload hrsp => cases hno.symm.trans hrsp
    | error e hte => cases hno.symm.trans (congrArg Block.rspPort hte)
    | corrupt p d hi hrsp => cases hno.symm.trans hrsp
    | hung hng hrsp => exact absurd hg hng
  · exact ⟨t, r, ht, hth, hr, hl⟩

/-- Settles O49: a step of a state that meets the invariant has a next state, which meets it too. -/
theorem theBlockNeverStops : Obligations.TheBlockNeverStops := by
  intro s hs k
  induction k generalizing s with
  | zero => exact ⟨s, rfl⟩
  | succ k ih =>
    obtain ⟨t, ht⟩ := step_next_of_blockInv hs
    obtain ⟨u, hu⟩ := ih t (StateObligations.stepKeepsTheInvariant s t hs ht)
    exact ⟨u, (run_succ_of_step (M := core) k ht).trans hu⟩

/-- Settles O53, by the answers of a command. -/
theorem errorsChangeNoRegister : Obligations.ErrorsChangeNoRegister := by
  intro i s t c rest hp h hrsp hc
  cases exec_answer h with
  | ok payload hok =>
    cases hok.symm.trans hrsp
    exact absurd rfl hc
  | error e ht =>
    cases (congrArg Block.rspPort ht).symm.trans hrsp
    exact ⟨rfl, .inr (eq_of_toBlock ht (exec_sameAround h).build (exec_sameAround h).hostMoves)⟩
  | corrupt p d hi hcorrupt =>
    cases hcorrupt.symm.trans hrsp
    exact ⟨rfl, .inl ⟨p, d, hi, rfl⟩⟩
  | hung _ hnone => cases (hnone.trans hp).symm.trans hrsp

/-- Settles O51: the block takes the frame off the port and raises IllegalCommand. -/
theorem illegalFrameIsAnsweredIllegalCommand : Obligations.IllegalFrameIsAnsweredIllegalCommand := by
  intro s f rest e ha he
  rw [step_of_accepts ha]
  obtain ⟨_, hrun⟩ | ⟨i, hi, _⟩ := runFrame_cases f { s with cmdPort := rest }
  · exact hrun
  · cases he.symm.trans hi

/-- Settles O59: blocks with the same registers are twins where they accept a frame and after an LDSEED, and twins answer
alike; a step of several blocks sets the one that steps. -/
theorem instancesShareNothing : Obligations.InstancesShareNothing := by
  refine ⟨?_, ?_, ?_⟩
  · intro s u a f rest more hbuild hreg hs hu hstep
    rw [step_of_accepts hs] at hstep
    obtain ⟨b, hb, hab⟩ := (twins_of_accepts hbuild hreg hs hu).next_of_runFrame f hstep
    exact ⟨b, (step_of_accepts hu).trans hb, hab.rspPort, hab.hung, hab.same.registers_eq⟩
  · exact fun k l s u => heard_ldseed_eq k l
  · intro blocks after k h
    obtain ⟨s, t, hs, hstep, rfl⟩ := (stepInstance_eq_some_iff k blocks after).1 h
    obtain ⟨hk, _⟩ := List.getElem?_eq_some_iff.1 hs
    exact ⟨fun j hj => List.getElem?_set_ne hj.symm, s, t, hs, hstep, List.getElem?_set_self hk⟩

end Sys2Proof.ExceptionObligations

end

/-!
Reset and the build (spec/70_reset_and_hazards.md R200, R201, R204): a step in which reset is asserted, and what every step
keeps, every run keeps.
-/

section

namespace Sys2Proof.Machine

/-! ### Reset -/

/-- Where reset is asserted, a step is that move of the host, whatever the block is doing (R201). -/
theorem step_of_resetAsserted {s : State} (hr : resetAsserted s.hostMoves = true) : step s = .next (afterMove s s.toBlock) := by
  obtain ⟨_, hstep⟩ | ⟨_, _, ⟨hnr, _⟩, _⟩ | ⟨hnr, _, _⟩ := step_cases s
  · exact hstep
  · exact absurd (hr.symm.trans hnr) (by decide)
  · exact absurd (hr.symm.trans hnr) (by decide)

/-- The host asserts reset: the block is the one after reset, and the build stays (R200, R204). -/
theorem afterMove_of_reset {s : State} {rest : List HostMove} (h : s.hostMoves = .reset :: rest) (t : Block) :
    afterMove s t = { State.reset with build := s.build, hostMoves := rest } := by
  simp only [afterMove, h, hostActs, State.reset]

/-! ### What a run keeps -/

/-- A run of one step more that has a next state begins with a step that has one. -/
theorem run_succ_eq_next {M : Host.Core} {k : Nat} {s t : M.State} (h : M.run (k + 1) s = .next t) :
    ∃ u, M.step s = .next u ∧ M.run k u = .next t := by
  rw [Host.Core.run] at h
  cases hstep : M.step s with
  | next u => exact ⟨u, rfl, by rwa [hstep] at h⟩
  | fault r => rw [hstep] at h; cases h
  | refused r => rw [hstep] at h; cases h

/-- What no step of a machine changes, no run of it changes. -/
theorem run_keeps {M : Host.Core} {α : Type} {f : M.State → α} (hstep : ∀ s t, M.step s = .next t → f t = f s)
    {k : Nat} {s t : M.State} (h : M.run k s = .next t) : f t = f s := by
  induction k generalizing s with
  | zero => cases h; rfl
  | succ k ih =>
    obtain ⟨u, hsu, hut⟩ := run_succ_eq_next h
    exact (ih hut).trans (hstep s u hsu)

/-- The build is an argument of the block's step, put back beside the block it makes (R204). -/
theorem step_build {s t : State} (h : step s = .next t) : t.build = s.build := by
  unfold step stepState at h
  obtain ⟨_, _, rfl⟩ := mapNext_eq_next h
  rfl

end Sys2Proof.Machine

namespace Sys2Proof.ResetObligations

open Sys2Proof.Machine

/-! ### The statements -/

/-- Settles O57: no step changes the build, and so no run does, by induction on its length. -/
theorem noStepChangesTheBuild : Obligations.NoStepChangesTheBuild :=
  ⟨fun _ _ => step_build, fun _ _ _ => run_keeps (M := core) (f := State.build) fun _ _ => step_build⟩

/-- Settles O56: reset is asserted, so the step is the host's reset. -/
theorem resetEndsWhateverTheBlockDoes : Obligations.ResetEndsWhateverTheBlockDoes := by
  intro s rest h
  have hr : resetAsserted s.hostMoves = true := by rw [h, resetAsserted]
  rw [step_of_resetAsserted hr, afterMove_of_reset h]

end Sys2Proof.ResetObligations

end
